-- ==== Sys2Proof/Word.lean ====
section
/-! DEFINITION. The byte, the only word of the machine (spec/00_scope.md R8), and its reduction modulo 256. -/

namespace Sys2Proof

/-- A byte: an unsigned integer 0 to 255 (R8). Bit 0 is the least significant. -/
abbrev Byte := BitVec 8

/-- `v mod 256` for any integer `v` a rule computes (spec/10_state.md R18). -/
def narrow (v : Int) : Byte := BitVec.ofInt 8 v

end Sys2Proof
end

