-- ==== Sys2Proof/Config.lean ====
section
/-! DEFINITION. The parameters of the machine (spec/00_scope.md R7) that neither a step nor an instruction changes,
and the free values the spec leaves to an implementation. The opcode map is in Decode.lean, the flag layout in
Machine/Flags.lean. -/

namespace Sys2Proof.Config

/-- `N`, the memory size in cells (R7, R15; D12 fixes it). -/
abbrev memSize : Nat := 256

/-- `R`, the register count (R7, R16). -/
abbrev regCount : Nat := 8

/-- The stack pointer's register index, R - 1 (R7, R20). -/
abbrev spIndex : Nat := 7

/-- The stack pointer's reset value (R7, R38). -/
abbrev spReset : Byte := 0xF4

/-- The program counter's reset value (R7, R38). -/
abbrev pcReset : Nat := 0

/-- The parameter REG_INIT (R7, R21): what R0 to R6 hold at construction. -/
inductive RegInit where
  /-- R0 to R6 start unwritten: a read before a write raises UnwrittenRegister (the spec's default, D4). -/
  | unwritten
  /-- R0 to R6 start written with 0. -/
  | zero
deriving DecidableEq, Repr

/-- The value of REG_INIT that `State.reset` uses. DESIGN CHOICE (log 1, unsafe): the spec leaves the parameter open
and a program is to run from reset, so every register holds a value. `State.construct .unwritten` is the other one. -/
def regInit : RegInit := .zero

/-- FREE VALUE (log 9). The byte that CALL's handler would store for a `pc` of 256 or more. No cycle gives it one
(spec/44_control_transfer.md R91), and the spec states no byte there. -/
opaque pcByteBeyond : Nat → Byte

/-- FREE VALUE (log 17). The parameter FAULT_EXIT_STATUS is non-zero (spec/70_reset_and_hazards.md R120, D24); it is
this number plus one. -/
opaque faultExitPred : Nat

/-- FREE VALUE (log 17). The exit status after a malformed program image is non-zero (R114, R120); it is this number
plus one. -/
opaque loadErrorExitPred : Nat

end Sys2Proof.Config
end

