-- ==== Sys2Proof/Machine/State.lean ====
section
/-! DEFINITION. The machine state (spec/10_state.md R14 to R27, R36), the reasons a step can stop, and the state after
construction (R38). -/

namespace Sys2Proof.Machine

open Sys2Proof

/-- The memory: the cells that do not hold 0, by strictly rising address. An unlisted address reads 0, which is what
every cell holds at construction (R15, R38). `Memory.wf` in Machine/Memory.lean is this form. -/
abbrev Memory := List Host.Cell

/-- The symbols the ALU can be asked for (spec/42_alu.md R82). -/
inductive AluOp where
  | add
  | mul
  | cmp
  /-- Any other operation symbol (R82, R100); no handler passes one. -/
  | other (symbol : String)
deriving DecidableEq, Repr

/-- The fault kinds (spec/60_exceptions.md R96). Each is fatal: `run` becomes Faulted with it (R95), and the machine
then has no step (spec/40_execution_cycle.md R77), so `step` answers `.fault` with it. All are safe: the spec stops
the machine there. -/
inductive Fault where
  /-- Raised by dispatch when the opcode byte has no row in the table; with the byte and its address (R97). Safe. -/
  | unknownOpcode (opcode : Byte) (address : Nat)
  /-- Raised by a memory access at an address of 256 or more; only the fetch_unit makes one (R98). Safe. -/
  | outOfBoundsMem (address : Nat)
  /-- Raised by a register read or write at an index of 8 or more (R99). Safe. -/
  | outOfBoundsReg (index : Nat)
  /-- Raised by the ALU function for an operation it does not have; no instruction raises it (R100). Safe. -/
  | unsupportedOperation (op : AluOp)
  /-- Raised by a read of R0 to R6 before any write, under REG_INIT = Unwritten (R101). Safe. -/
  | unwrittenRegister (index : Nat)
  /-- Raised by the image load, before any cycle (R102): the line that failed, counted from 1, or none when the file
  is missing (log 15). Safe. -/
  | loadError (line : Option Nat)
deriving DecidableEq, Repr

/-- Why a step has no meaning. -/
inductive Refusal where
  /-- Raised by `exec` for an instruction whose meaning is not written yet; no arm of this model raises it. Safe. -/
  | notModelled (mnemonic : String)
  /-- Raised by the engine when `run` is Halted: the machine has no step (R77; log 4). Safe. -/
  | halted
deriving DecidableEq, Repr

/-- The engine state (R26). -/
inductive RunState where
  | running
  | halted
  | faulted (f : Fault)
deriving DecidableEq, Repr

/-- The machine aggregate `(mem, reg, pc, FL, run, out)` (R14). The register cells, "each a byte or unwritten", are the
byte in `regs` and the mark in `written`; R7 is always written and has no mark (R21; log 2). -/
structure State where
  /-- Memory (R15). -/
  mem : Memory
  /-- R0 to R7 (R16). -/
  regs : Vector Byte 8
  /-- For R0 to R6: whether the cell has been written (R18, R19, R21). -/
  written : Vector Bool 7
  /-- The program counter, a number that never wraps (R22, R23). -/
  pc : Nat
  /-- The flags register FL (R24). -/
  fl : Byte
  /-- The engine state (R26). -/
  run : RunState
  /-- The bytes PRN has sent, oldest first (R27). -/
  out : List Byte
deriving DecidableEq, Repr

/-- The machine right after construction, before the image is loaded (R38, R112), for each REG_INIT. -/
def State.construct (init : Config.RegInit) : State where
  mem := []
  regs := #v[0, 0, 0, 0, 0, 0, 0, Config.spReset]
  written := Vector.replicate 7 (init == .zero)
  pc := Config.pcReset
  fl := 0x00
  run := .running
  out := []

/-- The machine right after reset. R0 to R6 are written with 0: DESIGN CHOICE (log 1, unsafe). -/
def State.reset : State := State.construct Config.regInit

end Sys2Proof.Machine
end

