-- ==== Sys2Proof/Machine/Flags.lean ====
section
/-! DEFINITION. The layout of the flags register (spec/10_state.md R24) and the comparison that computes it
(spec/42_alu.md R85). -/

namespace Sys2Proof.Machine

open Sys2Proof

/-- The parameter FLAG_LAYOUT (spec/00_scope.md R7): the value of FL with each flag alone set. -/
structure FlagLayout where
  equal : Byte
  greater : Byte
  less : Byte
deriving DecidableEq, Repr

/-- E is bit 0, G is bit 1, L is bit 2, bits 7:3 are 0 (R24). PRESUMED (log 7, unsafe): the spec's decision D3. -/
def flagLayout : FlagLayout := { equal := 0x01, greater := 0x02, less := 0x04 }

/-- The three-way comparison of unsigned bytes under a layout (R85). -/
def cmpFlagsIn (l : FlagLayout) (a b : Byte) : Byte :=
  if b.toNat < a.toNat then l.greater
  else if a = b then l.equal
  else l.less

/-- `cmpflags(a, b)` (R85). -/
def cmpFlags (a b : Byte) : Byte := cmpFlagsIn flagLayout a b

/-- What FL can hold (R25): no comparison result yet, or exactly one of E, G, L. -/
def flagsLegal (v : Byte) : Bool := v == 0x00 || v == 0x01 || v == 0x02 || v == 0x04

end Sys2Proof.Machine
end

