-- ==== Sys2Proof/Machine/Memory.lean ====
section
/-! DEFINITION. One byte of memory read and written (spec/20_memory.md R39 to R41), below the bounds test, and the
canonical form of a memory. -/

namespace Sys2Proof.Machine

open Sys2Proof

/-- What an unlisted cell holds: memory is "allocated zero-filled at machine construction" (spec/10_state.md R15). -/
def unlistedByte : Byte := 0

/-- The byte in cell `a` (R39). -/
def Memory.read : Memory → Nat → Byte
  | [], _ => unlistedByte
  | (b, w) :: m, a => if a = b then w else Memory.read m a

/-- The memory with byte `v` in cell `a` (R40); it keeps the canonical form. -/
def Memory.write : Memory → Nat → Byte → Memory
  | [], a, v => if v = unlistedByte then [] else [(a, v)]
  | (b, w) :: m, a, v =>
    if a < b then (if v = unlistedByte then (b, w) :: m else (a, v) :: (b, w) :: m)
    else if a = b then (if v = unlistedByte then m else (a, v) :: m)
    else (b, w) :: Memory.write m a v

/-- The canonical form from address `lo` up: addresses strictly rising, each a cell that exists (R15), and no entry
equal to what an unlisted cell reads as. -/
def Memory.wfFrom : Nat → Memory → Bool
  | _, [] => true
  | lo, (a, v) :: m =>
    decide (lo ≤ a) && decide (a < Config.memSize) && decide (v ≠ unlistedByte) && Memory.wfFrom (a + 1) m

/-- The canonical form of a memory. -/
def Memory.wf (m : Memory) : Bool := Memory.wfFrom 0 m

end Sys2Proof.Machine
end

