-- ==== Sys2Proof/Machine/Ops.lean ====
section
/-! DEFINITION. The named operations of the machine: the primitives of spec/00_scope.md R9 over registers, memory, the
program counter, the flags, the output and the engine state; and the entry into a fault (spec/60_exceptions.md R95).
There is no return from a fault (R105), so there is no operation for one. -/

namespace Sys2Proof.Machine

open Sys2Proof

/-- What a step of this machine answers. -/
abbrev Result := Host.Outcome State Fault Refusal

/-! ### Registers -/

/-- The byte in register cell `i`. -/
def State.reg (s : State) (i : Nat) : Byte := s.regs[i]?.getD 0

/-- Whether register cell `i` is written. Only R0 to R6 can be unwritten (R19, R21). -/
def State.isWritten (s : State) (i : Nat) : Bool := s.written[i]?.getD true

/-- Register cell `i` holding `v`; "the cell becomes written" (R18). -/
def State.setReg (s : State) (i : Nat) (v : Byte) : State :=
  { s with regs := s.regs.setIfInBounds i v, written := s.written.setIfInBounds i true }

/-- Register read `x[i]` (R19): the index test, then the unwritten test. -/
def readReg (i : Nat) (s : State) : Except Fault Byte :=
  if Config.regCount ≤ i then .error (.outOfBoundsReg i)
  else if s.isWritten i then .ok (s.reg i)
  else .error (.unwrittenRegister i)

/-- Register write `x[i] <- v` (R18): `v` is any integer, reduced modulo 256. -/
def writeReg (i : Nat) (v : Int) (s : State) : Except Fault State :=
  if Config.regCount ≤ i then .error (.outOfBoundsReg i)
  else .ok (s.setReg i (narrow v))

/-- `SP`, the same as `x[7]` (R9, R20); R7 is always written (R21). -/
def State.sp (s : State) : Byte := s.reg Config.spIndex

/-- `SP <- SP - 1`, a register write, so modulo 256 (R18, D11; log 11). -/
def decSp (s : State) : State := s.setReg Config.spIndex (narrow (s.sp.toNat - 1))

/-- `SP <- SP + 1`, a register write, so modulo 256 (R18, D11; log 11). -/
def incSp (s : State) : State := s.setReg Config.spIndex (narrow (s.sp.toNat + 1))

/-! ### Memory -/

/-- The byte in memory cell `a`. -/
def State.byteAt (s : State) (a : Nat) : Byte := s.mem.read a

/-- `MemRead(a, 1)` (spec/20_memory.md R39). -/
def memRead (a : Nat) (s : State) : Except Fault Byte :=
  if Config.memSize ≤ a then .error (.outOfBoundsMem a) else .ok (s.byteAt a)

/-- `MemWrite(a, 1, v)` (R40). -/
def memWrite (a : Nat) (v : Byte) (s : State) : Except Fault State :=
  if Config.memSize ≤ a then .error (.outOfBoundsMem a) else .ok { s with mem := s.mem.write a v }

/-! ### Program counter, flags, output, engine state -/

/-- `advance(arity)`: `pc <- pc + 1 + arity` (spec/10_state.md R31, spec/40_execution_cycle.md R71). -/
def advancePc (n : Nat) (s : State) : State := { s with pc := s.pc + 1 + n }

/-- `load(t)`: `pc <- t`, used only by CALL, RET and JMP (R31, R72). -/
def loadPc (t : Byte) (s : State) : State := { s with pc := t.toNat }

/-- The byte CALL pushes, "the instruction after CALL": the program counter, which in a cycle is a byte
(spec/44_control_transfer.md R91). For any other program counter it is a free value (log 9). -/
def pcByte (s : State) : Byte := if s.pc < 256 then BitVec.ofNat 8 s.pc else Config.pcByteBeyond s.pc

/-- `FL <- v` (R9, R33). -/
def setFlags (v : Byte) (s : State) : State := { s with fl := v }

/-- `emit(v)` (R27). -/
def emit (v : Byte) (s : State) : State := { s with out := s.out ++ [v] }

/-- The engine enters Halted (R26, R75; log 13). -/
def haltEngine (s : State) : State := { s with run := .halted }

/-! ### Fault entry -/

/-- `raise F(info)` (R95): `run <- Faulted(F, info)`. No state is saved, `pc` is not redirected, and the rest of the
state is left as the statements before the raise left it (log 5). -/
def raiseFault (f : Fault) (s : State) : State := { s with run := .faulted f }

/-- A cycle that raises a fault ends in the faulted state (R75, R95; log 3). -/
def takeFault (f : Fault) (s : State) : Result := .next (raiseFault f s)

/-- The next statement of a rule, or the fault the last one raised in state `s`. -/
def orFault {α : Type} (s : State) (x : Except Fault α) (k : α → Result) : Result :=
  match x with
  | .ok v => k v
  | .error f => takeFault f s

end Sys2Proof.Machine
end

