-- ==== Sys2Proof/Machine/Operands.lean ====
section
/-! DEFINITION. The operand forms: a register operand (spec/30_encoding.md R58), an immediate (R59), and "at SP" with
pre-decrement on a store and post-increment on a load (spec/43_stack.md). -/

namespace Sys2Proof.Machine

open Sys2Proof

/-- Read a register operand, then go on with its value (spec/10_state.md R19, R58). -/
def withReg (r : Nat) (s : State) (k : Byte → Result) : Result := orFault s (readReg r s) k

/-- Read two register operands, the first completely before the second (spec/42_alu.md R86; 90_conflicts.md C10). -/
def withRegs (a b : Nat) (s : State) (k : Byte → Byte → Result) : Result :=
  withReg a s fun va => withReg b s fun vb => k va vb

/-- The immediate: the whole operand byte, not extended, scaled or shifted (R59). -/
def immediate (imm : Byte) : Int := imm.toNat

/-- The address a load "at SP" reads: SP before its increment (spec/20_memory.md R44). -/
def popAddr (s : State) : Nat := s.sp.toNat

/-- The address a store "at SP" writes: SP after its decrement (R44). -/
def pushAddr (s : State) : Nat := (decSp s).sp.toNat

/-- Store byte `v` at SP, in a state whose SP is already decremented, then go on. -/
def storeAtSp (v : Byte) (s : State) (k : State → Result) : Result := orFault s (memWrite s.sp.toNat v s) k

/-- Load the byte at SP, then go on with it. -/
def loadAtSp (s : State) (k : Byte → Result) : Result := orFault s (memRead (popAddr s) s) k

end Sys2Proof.Machine
end

