-- ==== Sys2Proof/Machine/Alu.lean ====
section
/-! DEFINITION. The ALU function (spec/42_alu.md R82 to R85) and what a handler does with its answer. -/

namespace Sys2Proof.Machine

open Sys2Proof

/-- What the ALU returns: `(result, flag_update?)` (spec/10_state.md R34). ADD and MUL give a result, CMP a flags
value. -/
structure AluOut where
  result : Option Byte
  flags : Option Byte
deriving DecidableEq, Repr

/-- `ALU(op, a, b)` (R82): a pure function of two bytes. -/
def aluApply (op : AluOp) (a b : Byte) : Except Fault AluOut :=
  match op with
  | .add => .ok { result := some (narrow (a.toNat + b.toNat)), flags := none }
  | .mul => .ok { result := some (narrow (a.toNat * b.toNat)), flags := none }
  | .cmp => .ok { result := none, flags := some (cmpFlags a b) }
  | .other symbol => .error (.unsupportedOperation (.other symbol))

/-- `FL <- v` when the ALU gave a flags value. -/
def commitFlags (flags : Option Byte) (s : State) : State :=
  match flags with
  | none => s
  | some v => setFlags v s

/-- The handler that called the ALU writes the result, to its first operand's register (R82, R86). -/
def commitAlu (a : Nat) (o : AluOut) (s : State) : Result :=
  match o.result with
  | none => .next (commitFlags o.flags s)
  | some v => orFault s (writeReg a v.toNat s) fun t => .next (commitFlags o.flags t)

/-- A two-operand ALU instruction: read `x[a]`, read `x[b]`, apply, commit (R86, R87, R88). -/
def aluInstr (op : AluOp) (a b : Nat) (s : State) : Result :=
  withRegs a b s fun va vb => orFault s (aluApply op va vb) fun o => commitAlu a o s

end Sys2Proof.Machine
end

