-- ==== Sys2Proof/Machine/Arith.lean ====
section
/-! DEFINITION. ADD, MUL and CMP (spec/42_alu.md): each passes its own fixed operation to the ALU. -/

namespace Sys2Proof.Machine

open Sys2Proof

/-- ADD a, b (R86): `x[a] <- (x[a] + x[b]) mod 256`. -/
def execAdd (a b : Nat) (s : State) : Result := aluInstr .add a b s

/-- MUL a, b (R87): `x[a] <- (x[a] * x[b]) mod 256`. -/
def execMul (a b : Nat) (s : State) : Result := aluInstr .mul a b s

/-- CMP a, b (R88): `FL <- cmpflags(x[a], x[b])`. -/
def execCmp (a b : Nat) (s : State) : Result := aluInstr .cmp a b s

end Sys2Proof.Machine
end

