-- ==== Sys2Proof/Machine/Control.lean ====
section
/-! DEFINITION. CALL, RET and JMP (spec/44_control_transfer.md). Each overwrites `pc` after the cycle's advance. Each
statement reads the state the one before left (D10; log 10). -/

namespace Sys2Proof.Machine

open Sys2Proof

/-- CALL r (R91): `SP <- SP - 1; MemWrite(SP, 1, pc); t <- x[r]; pc <- t`. -/
def execCall (r : Nat) (s : State) : Result :=
  storeAtSp (pcByte s) (decSp s) fun t => withReg r t fun v => .next (loadPc v t)

/-- RET (R92): `t <- MemRead(SP, 1); pc <- t; SP <- SP + 1`. -/
def execRet (s : State) : Result := loadAtSp s fun v => .next (incSp (loadPc v s))

/-- JMP r (R93): `t <- x[r]; pc <- t`. -/
def execJmp (r : Nat) (s : State) : Result := withReg r s fun v => .next (loadPc v s)

end Sys2Proof.Machine
end

