-- ==== Sys2Proof/Machine/LoadPrint.lean ====
section
/-! DEFINITION. HLT, LDI and PRN (spec/41_halt_load_print.md). A handler runs after the cycle's advance, so `pc` is
already past the instruction (spec/40_execution_cycle.md R71). -/

namespace Sys2Proof.Machine

open Sys2Proof

/-- HLT (R79): stop the execution loop. -/
def execHlt (s : State) : Result := .next (haltEngine s)

/-- LDI r, imm (R80): `x[r] <- imm`. -/
def execLdi (r : Nat) (imm : Byte) (s : State) : Result := orFault s (writeReg r (immediate imm) s) fun t => .next t

/-- PRN r (R81): `v <- x[r]; emit(v)`. -/
def execPrn (r : Nat) (s : State) : Result := withReg r s fun v => .next (emit v s)

end Sys2Proof.Machine
end

