-- ==== Sys2Proof/Machine/Stack.lean ====
section
/-! DEFINITION. PUSH and POP (spec/43_stack.md). Each statement reads the state the one before left (D10; log 10). -/

namespace Sys2Proof.Machine

open Sys2Proof

/-- PUSH r (R89): `SP <- SP - 1; v <- x[r]; MemWrite(SP, 1, v)`. -/
def execPush (r : Nat) (s : State) : Result :=
  withReg r (decSp s) fun v => storeAtSp v (decSp s) fun t => .next t

/-- POP r (R90): `v <- MemRead(SP, 1); x[r] <- v; SP <- SP + 1`. -/
def execPop (r : Nat) (s : State) : Result :=
  loadAtSp s fun v => orFault s (writeReg r v.toNat s) fun t => .next (incSp t)

end Sys2Proof.Machine
end

