-- ==== Sys2Proof/Syntax.lean ====
section
/-! DEFINITION. The instruction set: one constructor per row of spec/opcode_table.json, in the order of
spec/00_scope.md R6. A register operand is an unsigned index (spec/30_encoding.md R58), so it is a number; the
immediate is a byte (R59). -/

namespace Sys2Proof

/-- The eleven instructions (R6, R60). -/
inductive Instr where
  /-- HLT (R79). -/
  | hlt
  /-- LDI r, imm (R80). -/
  | ldi (r : Nat) (imm : Byte)
  /-- PRN r (R81). -/
  | prn (r : Nat)
  /-- ADD a, b (R86). -/
  | add (a b : Nat)
  /-- MUL a, b (R87). -/
  | mul (a b : Nat)
  /-- CMP a, b (R88). -/
  | cmp (a b : Nat)
  /-- PUSH r (R89). -/
  | push (r : Nat)
  /-- POP r (R90). -/
  | pop (r : Nat)
  /-- CALL r (R91). -/
  | call (r : Nat)
  /-- RET (R92). -/
  | ret
  /-- JMP r (R93). -/
  | jmp (r : Nat)
deriving DecidableEq, Repr

end Sys2Proof
end

