-- ==== Sys2Proof/Machine/Dispatch.lean ====
section
/-! DEFINITION. The handler of each instruction (spec/40_execution_cycle.md R74): one arm per constructor. -/

namespace Sys2Proof.Machine

open Sys2Proof

def exec (i : Instr) (s : State) : Host.Outcome State Fault Refusal :=
  match i with
  | .hlt => Sys2Proof.Machine.execHlt s
  | .ldi r imm => Sys2Proof.Machine.execLdi r imm s
  | .prn r => Sys2Proof.Machine.execPrn r s
  | .add a b => Sys2Proof.Machine.execAdd a b s
  | .mul a b => Sys2Proof.Machine.execMul a b s
  | .cmp a b => Sys2Proof.Machine.execCmp a b s
  | .push r => Sys2Proof.Machine.execPush r s
  | .pop r => Sys2Proof.Machine.execPop r s
  | .call r => Sys2Proof.Machine.execCall r s
  | .ret => Sys2Proof.Machine.execRet s
  | .jmp r => Sys2Proof.Machine.execJmp r s

end Sys2Proof.Machine
end

