-- ==== Sys2Proof/WellFormed.lean ====
section
/-! DEFINITION. Which instruction terms are instructions of the machine. A register operand is one whole operand byte,
0 to 255 (spec/30_encoding.md R58, R64: every byte value is accepted as an operand); an index of 8 to 255 is well
formed and faults only when the handler uses it (spec/10_state.md R17). -/

namespace Sys2Proof

/-- A register operand fits the operand byte (R58). -/
def operandFits (r : Nat) : Bool := decide (r < 256)

/-- Every register operand of the instruction fits its operand byte (R57, R58). The immediate is a byte by its type
(R59). -/
def Instr.wellFormed : Instr → Bool
  | .hlt => true
  | .ldi r _ => operandFits r
  | .prn r => operandFits r
  | .add a b => operandFits a && operandFits b
  | .mul a b => operandFits a && operandFits b
  | .cmp a b => operandFits a && operandFits b
  | .push r => operandFits r
  | .pop r => operandFits r
  | .call r => operandFits r
  | .ret => true
  | .jmp r => operandFits r

end Sys2Proof
end

