-- ==== Sys2Proof/Decode.lean ====
section
/-! DEFINITION. The instruction_decoder and the dispatch_table (spec/10_state.md R29, R30; spec/30_encoding.md), the
decoder over any bytes, and the encoder. -/

namespace Sys2Proof

/-- `arity(opcode) = opcode >> 6`, a number 0 to 3 (R29, R55; 90_conflicts.md C6). -/
def arity (opcode : Byte) : Nat := (opcode >>> 6).toNat

/-- `length(opcode) = 1 + arity(opcode)` (R29, R56). -/
def instrLength (opcode : Byte) : Nat := 1 + arity opcode

/-- The four formats (R57). -/
inductive Format where
  | Z
  | R
  | RR
  | RI
deriving DecidableEq, Repr

/-- The operand count of a format (R57). -/
def Format.operandCount : Format → Nat
  | .Z => 0
  | .R => 1
  | .RR => 2
  | .RI => 2

/-- A tagged handler reference (R30), one per instruction. -/
inductive Handler where
  | hlt
  | ldi
  | prn
  | add
  | mul
  | cmp
  | push
  | pop
  | call
  | ret
  | jmp
deriving DecidableEq, Repr

/-- The eleven handlers, in the order of R60. -/
def Handler.all : List Handler := [.hlt, .ldi, .prn, .add, .mul, .cmp, .push, .pop, .call, .ret, .jmp]

/-- The format of each handler's instruction (R57, R60). -/
def Handler.format : Handler → Format
  | .hlt => .Z
  | .ldi => .RI
  | .prn => .R
  | .add => .RR
  | .mul => .RR
  | .cmp => .RR
  | .push => .R
  | .pop => .R
  | .call => .R
  | .ret => .Z
  | .jmp => .R

/-- The handler an instruction runs. -/
def Instr.handler : Instr → Handler
  | .hlt => .hlt
  | .ldi _ _ => .ldi
  | .prn _ => .prn
  | .add _ _ => .add
  | .mul _ _ => .mul
  | .cmp _ _ => .cmp
  | .push _ => .push
  | .pop _ => .pop
  | .call _ => .call
  | .ret => .ret
  | .jmp _ => .jmp

/-- The parameter OPCODE_MAP: the opcode byte of each handler (R7, R60). -/
abbrev OpcodeMap := Handler → Byte

/-- The three conditions of R60 on an opcode map: bits 7:6 of each value are its instruction's operand count, the
values are distinct, and HLT, LDI and PRN keep the source's values. -/
abbrev OpcodeMap.Wf (m : OpcodeMap) : Prop :=
  (∀ h ∈ Handler.all, arity (m h) = h.format.operandCount) ∧
  (∀ h ∈ Handler.all, ∀ h' ∈ Handler.all, m h = m h' → h = h') ∧
  m .hlt = 0x01 ∧ m .ldi = 0x82 ∧ m .prn = 0x47

/-- The opcode values of R60. HLT, LDI and PRN are the source's; the other eight are PRESUMED (log 6, unsafe): the
spec's decision D2 takes them from general knowledge. -/
def opcodeMap : OpcodeMap
  | .hlt => 0b00000001
  | .ldi => 0b10000010
  | .prn => 0b01000111
  | .add => 0b10100000
  | .mul => 0b10100010
  | .cmp => 0b10100111
  | .push => 0b01000101
  | .pop => 0b01000110
  | .call => 0b01010000
  | .ret => 0b00010001
  | .jmp => 0b01010100

/-- `lookup(opcode)` under an opcode map: the whole byte selects the handler, or none (R30, R54). -/
def lookupIn (m : OpcodeMap) (opcode : Byte) : Option Handler := Handler.all.find? fun h => m h == opcode

/-- The dispatch table of the machine (R30, R60, R76). -/
def lookup (opcode : Byte) : Option Handler := lookupIn opcodeMap opcode

/-- An instruction of no operand, from exactly no operand byte. -/
def nullary (i : Instr) : List Byte → Option Instr
  | [] => some i
  | _ => none

/-- An instruction of one operand byte, from exactly one. -/
def unary (f : Byte → Instr) : List Byte → Option Instr
  | [x] => some (f x)
  | _ => none

/-- An instruction of two operand bytes, from exactly two, the first at the lower address (R53, R74). -/
def binary (f : Byte → Byte → Instr) : List Byte → Option Instr
  | [x, y] => some (f x y)
  | _ => none

/-- The instruction a handler runs on its operand bytes (R57, R74): a register operand is the whole byte as an
unsigned index, with no bit masked (R58); the immediate is the whole byte (R59). -/
def Handler.instr : Handler → List Byte → Option Instr
  | .hlt => nullary .hlt
  | .ldi => binary fun r imm => .ldi r.toNat imm
  | .prn => unary fun r => .prn r.toNat
  | .add => binary fun a b => .add a.toNat b.toNat
  | .mul => binary fun a b => .mul a.toNat b.toNat
  | .cmp => binary fun a b => .cmp a.toNat b.toNat
  | .push => unary fun r => .push r.toNat
  | .pop => unary fun r => .pop r.toNat
  | .call => unary fun r => .call r.toNat
  | .ret => nullary .ret
  | .jmp => unary fun r => .jmp r.toNat

/-- Why bytes are no instruction. -/
inductive DecodeError where
  /-- There is no byte to read an opcode from. -/
  | noBytes
  /-- The opcode byte has no row in the dispatch table (R62). -/
  | unknownOpcode (opcode : Byte)
  /-- Fewer operand bytes follow the opcode than its arity. -/
  | truncated (opcode : Byte)
deriving DecidableEq, Repr

/-- Decode the instruction at the front of a list of bytes under an opcode map, and return the bytes after it. The
length comes from bits 7:6 of the opcode alone (R55, R65). -/
def decodeWith (m : OpcodeMap) : List Byte → Except DecodeError (Instr × List Byte)
  | [] => .error .noBytes
  | opcode :: rest =>
    match lookupIn m opcode with
    | none => .error (.unknownOpcode opcode)
    | some h =>
      match h.instr (rest.take (arity opcode)) with
      | none => .error (.truncated opcode)
      | some i => .ok (i, rest.drop (arity opcode))

/-- The decoder of the machine. -/
def decode (bytes : List Byte) : Except DecodeError (Instr × List Byte) := decodeWith opcodeMap bytes

/-- A register operand as its operand byte (R58). -/
def operandByte (r : Nat) : Byte := BitVec.ofNat 8 r

/-- The operand bytes of an instruction, in encoding order (R57). -/
def Instr.operandBytes : Instr → List Byte
  | .hlt => []
  | .ldi r imm => [operandByte r, imm]
  | .prn r => [operandByte r]
  | .add a b => [operandByte a, operandByte b]
  | .mul a b => [operandByte a, operandByte b]
  | .cmp a b => [operandByte a, operandByte b]
  | .push r => [operandByte r]
  | .pop r => [operandByte r]
  | .call r => [operandByte r]
  | .ret => []
  | .jmp r => [operandByte r]

/-- The bytes of an instruction under an opcode map, the opcode first (R53). -/
def encodeWith (m : OpcodeMap) (i : Instr) : List Byte := m i.handler :: i.operandBytes

/-- The bytes of an instruction. -/
def encode (i : Instr) : List Byte := encodeWith opcodeMap i

/-- The three bytes of an instruction whose bits are `w`, bit 0 the least significant bit of the first byte; every bit
at or above `nbits` is 0. -/
def tableBytes (nbits w : Nat) : List Byte :=
  let v := w % 2 ^ nbits
  [BitVec.ofNat 8 v, BitVec.ofNat 8 (v / 256), BitVec.ofNat 8 (v / 65536)]

/-- The instruction the decoder reads from such a word. -/
def decodeTableWord (nbits w : Nat) : Option Instr :=
  match decode (tableBytes nbits w) with
  | .ok (i, _) => some i
  | .error _ => none

end Sys2Proof
end

