-- ==== Sys2Proof/Machine/Fetch.lean ====
section
/-! DEFINITION. The fetch_unit (spec/10_state.md R28; spec/40_execution_cycle.md R68, R70), and the placing of an
instruction's bytes where it reads them. -/

namespace Sys2Proof.Machine

open Sys2Proof

/-- The three bytes of a fetch: the opcode and the two prefetched bytes, in the order of their addresses. -/
structure Fetched where
  opcode : Byte
  b1 : Byte
  b2 : Byte
deriving DecidableEq, Repr

/-- `fetch(mem, pc)` (R28): three reads in order, "regardless of arity", or the fault of the first that is out of
range. It writes nothing. The fault at the top of memory is the spec's reading (D5, 90_conflicts.md C1; log 8). -/
def fetch (s : State) : Except Fault Fetched :=
  match memRead s.pc s with
  | .error f => .error f
  | .ok opcode =>
    match memRead (s.pc + 1) s with
    | .error f => .error f
    | .ok b1 =>
      match memRead (s.pc + 2) s with
      | .error f => .error f
      | .ok b2 => .ok { opcode, b1, b2 }

/-- The bytes stored from address `a` up; a byte whose address does not exist (256 or more) is dropped. -/
def placeBytes : List Byte → Nat → State → State
  | [], _, s => s
  | v :: vs, a, s => placeBytes vs (a + 1) (if a < Config.memSize then { s with mem := s.mem.write a v } else s)

end Sys2Proof.Machine
end

