-- ==== Sys2Proof/Machine/Cycle.lean ====
section
/-! DEFINITION. One complete cycle of the execution engine (spec/40_execution_cycle.md R67 to R78). -/

namespace Sys2Proof.Machine

open Sys2Proof

/-- Dispatch and handler (R73, R74): the handler gets exactly `arity` operand bytes of those prefetched. `s` is the
state after the advance, `a0` the instruction's address. -/
def dispatch (x : Fetched) (a0 : Nat) (s : State) : Result :=
  match decode [x.opcode, x.b1, x.b2] with
  | .ok (i, _) => exec i s
  | .error _ => takeFault (.unknownOpcode x.opcode a0) s

/-- The cycle (R78): fetch, decode, prefetch, advance, dispatch, execute. The advance comes before the dispatch, for
every opcode (R71). -/
def cycle (s : State) : Result :=
  orFault s (fetch s) fun x => dispatch x s.pc (advancePc (arity x.opcode) s)

/-- The engine (R67, R77): a cycle while `run` is Running. In Halted and in Faulted the machine has no step: the answer
is a refusal by name in Halted (log 4), and in Faulted the fault that is surfaced (R95; log 3). -/
def engine (s : State) : Result :=
  match s.run with
  | .running => cycle s
  | .halted => .refused .halted
  | .faulted f => .fault f

end Sys2Proof.Machine
end

