-- ==== Sys2Proof/Machine/Step.lean ====
section
/-! DEFINITION. One step of the machine, which is one cycle of the engine (spec/00_scope.md R11). -/

namespace Sys2Proof.Machine

open Sys2Proof

/-- One step (R11, R67). -/
def step (s : State) : Host.Outcome State Fault Refusal := engine s

/-- The state with the bytes of one instruction where the next fetch reads them (log 16). -/
def State.withFetchWord (s : State) (nbits w : Nat) : State := placeBytes (tableBytes nbits w) s.pc s

end Sys2Proof.Machine
end

