-- ==== Sys2Proof/Machine/Loader.lean ====
section
/-! DEFINITION. Boot: construct the machine and load the program image (spec/70_reset_and_hazards.md R112 to R116).
The image is the text of a file, or none when the file is missing. -/

namespace Sys2Proof.Machine

open Sys2Proof

/-- The lines of a text: a line ends at a newline character (log 14). -/
def splitLines : List Char → List (List Char)
  | [] => [[]]
  | c :: cs =>
    if c = '\n' then [] :: splitLines cs
    else
      match splitLines cs with
      | [] => [[c]]
      | l :: ls => (c :: l) :: ls

/-- "A `#` and everything after it on the line is removed" (R113). -/
def stripComment (line : List Char) : List Char := line.takeWhile fun c => c ≠ '#'

/-- A space or a tab (R115). -/
def isBlank (c : Char) : Bool := c == ' ' || c == '\t'

/-- "Spaces and tabs around a token are removed" (R115, D15). -/
def trim (line : List Char) : List Char := ((line.dropWhile isBlank).reverse.dropWhile isBlank).reverse

/-- A literal binary string, most significant digit first, as a number; `acc` is the value of the digits before. Any
character that is no `0` or `1` makes it malformed (R113, R114). -/
def binaryValue (acc : Nat) : List Char → Option Nat
  | [] => some acc
  | c :: cs =>
    if c = '0' then binaryValue (2 * acc) cs
    else if c = '1' then binaryValue (2 * acc + 1) cs
    else none

/-- What one line of the image is. -/
inductive LineToken where
  /-- Blank after comment-stripping: it takes no address (R113). -/
  | blank
  /-- One byte (R113). -/
  | byte (v : Byte)
  /-- Not a binary literal, or a value over 255 (R114, R115). -/
  | malformed
deriving DecidableEq, Repr

/-- Read one line (R113, R115). -/
def lineToken (line : List Char) : LineToken :=
  match trim (stripComment line) with
  | [] => .blank
  | c :: cs =>
    match binaryValue 0 (c :: cs) with
    | none => .malformed
    | some v => if v < 256 then .byte (BitVec.ofNat 8 v) else .malformed

/-- Load lines to successive addresses from `a` (R113); `n` is the number of the first of them. A malformed line, or a
byte that would need address 256, raises LoadError (R114, R115). -/
def loadLines (n a : Nat) : List (List Char) → State → State
  | [], s => s
  | l :: ls, s =>
    match lineToken l with
    | .blank => loadLines (n + 1) a ls s
    | .malformed => raiseFault (.loadError (some n)) s
    | .byte v =>
      if a < Config.memSize then loadLines (n + 1) (a + 1) ls { s with mem := s.mem.write a v }
      else raiseFault (.loadError (some n)) s

/-- Load an image into memory from address 0; a missing file is a LoadError too (R102, R114). -/
def loadImage (image : Option (List Char)) (s : State) : State :=
  match image with
  | none => raiseFault (.loadError none) s
  | some text => loadLines 1 0 (splitLines text) s

/-- A byte as the image writes it: eight binary digits, the most significant first (spec/00_scope.md R8). -/
def binaryToken (v : Byte) : List Char :=
  (List.range 8).map fun k => if v.getLsbD (7 - k) then '1' else '0'

/-- An image of bytes, one token per line (R113). -/
def imageText (bytes : List Byte) : List Char := bytes.flatMap fun v => binaryToken v ++ ['\n']

/-- The boot order (R116): construct, then load, or stop with LoadError. Cycles run from the state this gives. -/
def boot (init : Config.RegInit) (image : Option (List Char)) : State := loadImage image (State.construct init)

end Sys2Proof.Machine
end

