-- ==== Sys2Proof/Machine/Report.lean ====
section
/-! DEFINITION. What the host sees of a run: the fault codes (spec/60_exceptions.md R96), the exit status
(spec/70_reset_and_hazards.md R120) and the text of the output (spec/10_state.md R27). No step depends on them. -/

namespace Sys2Proof.Machine

open Sys2Proof

/-- The code of a fault (R96, D8). -/
def Fault.code : Fault → Nat
  | .unknownOpcode _ _ => 1
  | .outOfBoundsMem _ => 2
  | .outOfBoundsReg _ => 3
  | .unsupportedOperation _ => 4
  | .unwrittenRegister _ => 5
  | .loadError _ => 6

/-- The exit status after a fault (R120): 2 for a missing file; non-zero otherwise, by a free value (D24; log 17). -/
def faultExitStatus : Fault → Nat
  | .loadError none => 2
  | .loadError (some _) => Config.loadErrorExitPred + 1
  | .unknownOpcode _ _ => Config.faultExitPred + 1
  | .outOfBoundsMem _ => Config.faultExitPred + 1
  | .outOfBoundsReg _ => Config.faultExitPred + 1
  | .unsupportedOperation _ => Config.faultExitPred + 1
  | .unwrittenRegister _ => Config.faultExitPred + 1

/-- The process exit status, none while the run goes on (R118, R120). -/
def exitStatus (s : State) : Option Nat :=
  match s.run with
  | .running => none
  | .halted => some 0
  | .faulted f => some (faultExitStatus f)

/-- One decimal digit as a character. -/
def digitChar (d : Nat) : Char := Char.ofNat ('0'.toNat + d)

/-- A byte in unsigned decimal, with no sign and no leading zeros (spec/41_halt_load_print.md R81, D14; log 18). -/
def decimal (v : Byte) : List Char :=
  let n := v.toNat
  if n < 10 then [digitChar n]
  else if n < 100 then [digitChar (n / 10), digitChar (n % 10)]
  else [digitChar (n / 100), digitChar (n / 10 % 10), digitChar (n % 10)]

/-- The text the host writes: one line per PRN, in execution order (R27). -/
def outputText (s : State) : List Char := s.out.flatMap fun v => decimal v ++ ['\n']

end Sys2Proof.Machine
end

