-- ==== Sys2Proof/Safety.lean ====
section
/-! DEFINITION. The terms claims are stated in: the invariant of the machine's states, how a run ends, and what an
instruction leaves unchanged. -/

namespace Sys2Proof.Machine

open Sys2Proof

/-- A cell that reads as unwritten holds no other data (log 2). -/
abbrev State.UnwrittenCellsAreZero (s : State) : Prop := ∀ i, i < 7 → s.isWritten i = false → s.reg i = 0

/-- The machine's invariant: memory in canonical form with addresses below 256 (R15), `pc` at most 257 (R23), FL a
legal value (R24, R25), and unwritten cells without data. -/
abbrev State.Inv (s : State) : Prop :=
  s.mem.wf = true ∧ s.pc ≤ 257 ∧ flagsLegal s.fl = true ∧ s.UnwrittenCellsAreZero

/-- Every register is written, as after a reset under REG_INIT = Zero. -/
abbrev State.AllWritten (s : State) : Prop := ∀ i, i < 7 → s.isWritten i = true

/-- `s` reaches `t` in `n` steps. -/
def reachesIn : Nat → State → State → Prop
  | 0, s, t => s = t
  | n + 1, s, t => ∃ u, step s = .next u ∧ reachesIn n u t

/-- The run ended in the only final state (spec/70_reset_and_hazards.md R118). -/
abbrev State.Final (s : State) : Prop := s.run = .halted

/-- The run ended in a fault, which "refutes any claim that the program works" (R118). -/
def State.Failed (s : State) : Prop := ∃ f, s.run = .faulted f

/-- A safe run: no state that the machine reaches from `s` is faulted. -/
def State.Safe (s : State) : Prop := ∀ n t, reachesIn n s t → ¬ t.Failed

/-- A register operand that can be read: its index is valid and its cell is written (R17, R19). -/
abbrev State.Readable (s : State) (r : Nat) : Prop := r < 8 ∧ s.isWritten r = true

/-- The register cells other than `r` hold in `t` what they hold in `s`, value and mark. -/
def SameRegsBut (r : Nat) (s t : State) : Prop := ∀ j, j ≠ r → t.reg j = s.reg j ∧ t.isWritten j = s.isWritten j

/-- The register cells other than `r` and R7 hold in `t` what they hold in `s`, value and mark. -/
def SameRegsButSpAnd (r : Nat) (s t : State) : Prop :=
  ∀ j, j ≠ r → j ≠ 7 → t.reg j = s.reg j ∧ t.isWritten j = s.isWritten j

/-- Every register cell holds in `t` what it holds in `s`, value and mark. -/
def SameRegs (s t : State) : Prop := ∀ j, t.reg j = s.reg j ∧ t.isWritten j = s.isWritten j

/-- Every byte of memory reads in `t` as in `s`. -/
def SameMem (s t : State) : Prop := ∀ a, t.byteAt a = s.byteAt a

/-- Every byte of memory but the one at `p` reads in `t` as in `s`. -/
def SameMemBut (p : Nat) (s t : State) : Prop := ∀ a, a ≠ p → t.byteAt a = s.byteAt a

end Sys2Proof.Machine
end

