-- ==== Sys2Proof/Certificates/Slice0/Obligations.lean ====
section
/-! DEFINITION. The statements for the provers. Each docstring names the rule or section of spec/ it formalises. A
statement about a state that a fault stopped speaks of its `run` only (spec/60_exceptions.md R95), and a whole-machine
rule excludes failed states for the same reason. -/

open Sys2Proof Sys2Proof.Machine

/-! ### Construction, boot and the invariant -/

/-- What construction leaves, for both values of REG_INIT (10_state.md section 9). That `State.reset` is the one with
REG_INIT = Zero is the model's choice (log 1). -/
def Obligations.ConstructionLeavesSpecValues : Prop :=
  (∀ init : Config.RegInit,
    let s := State.construct init
    (∀ a, s.byteAt a = 0) ∧ s.reg 7 = 0xF4 ∧ s.isWritten 7 = true ∧ s.pc = 0 ∧ s.fl = 0x00 ∧
      s.run = .running ∧ s.out = []) ∧
  (∀ i, i < 7 → (State.construct .unwritten).isWritten i = false) ∧
  (∀ i, i < 7 → (State.construct .zero).isWritten i = true ∧ (State.construct .zero).reg i = 0) ∧
  State.reset = State.construct .zero

/-- The invariant holds right after construction, under both values of REG_INIT, and so at reset. -/
def Obligations.InvHoldsAtConstruction : Prop :=
  State.reset.Inv ∧ ∀ init, (State.construct init).Inv

/-- Whatever the image, or no image, the boot gives a state with the invariant (70_reset_and_hazards.md section 1). -/
def Obligations.BootEstablishesInv : Prop := ∀ init image, (boot init image).Inv

/-- Every step keeps the invariant: memory in canonical form with addresses below 256, `pc` at most 257, FL one of 0x00,
0x01, 0x02, 0x04, and no data under an unwritten mark. -/
def Obligations.StepKeepsInv : Prop := ∀ s t, s.Inv → step s = .next t → t.Inv

/-- From a state in which every register is written, as the model's reset leaves it (log 1), no step makes one
unwritten and none raises UnwrittenRegister (10_state.md R18: a write makes a cell written). -/
def Obligations.WrittenRegistersStayWritten : Prop :=
  State.reset.AllWritten ∧
  ∀ s t, s.AllWritten → step s = .next t → t.AllWritten ∧ ∀ i, t.run ≠ .faulted (.unwrittenRegister i)

/-! ### The cycle -/

/-- R74: a step runs the decoded instruction. It is the instruction of the handler that the opcode byte selects, it has
exactly `arity` of the prefetched operand bytes, in order, and the rest of them is discarded; the step is its meaning, at
the state whose `pc` is past the instruction. -/
def Obligations.StepRunsDecodedInstruction : Prop :=
  ∀ s i rest, s.run = .running → s.pc + 2 < 256 →
    decode [s.byteAt s.pc, s.byteAt (s.pc + 1), s.byteAt (s.pc + 2)] = .ok (i, rest) →
    lookup (s.byteAt s.pc) = some i.handler ∧
    i.operandBytes = [s.byteAt (s.pc + 1), s.byteAt (s.pc + 2)].take (arity (s.byteAt s.pc)) ∧
    rest = [s.byteAt (s.pc + 1), s.byteAt (s.pc + 2)].drop (arity (s.byteAt s.pc)) ∧
    step s = exec i { s with pc := s.pc + 1 + arity (s.byteAt s.pc) }

/-- Where the bytes at the program counter are the encoding of a well-formed instruction, a step runs that instruction,
and the `pc` it sees is past those bytes. -/
def Obligations.StepRunsEncodedInstruction : Prop :=
  ∀ s i, s.run = .running → s.pc + 2 < 256 → i.wellFormed = true →
    (∀ k v, (encode i)[k]? = some v → s.byteAt (s.pc + k) = v) →
    step s = exec i { s with pc := s.pc + (encode i).length }

/-- R28: the fetch reads three bytes in order, whatever the opcode, or raises the fault of the first that does not
exist. -/
def Obligations.FetchReadsThreeBytesOrFaults : Prop :=
  ∀ s : State,
    (s.pc + 2 < 256 →
      fetch s = .ok { opcode := s.byteAt s.pc, b1 := s.byteAt (s.pc + 1), b2 := s.byteAt (s.pc + 2) }) ∧
    (256 ≤ s.pc → fetch s = .error (.outOfBoundsMem s.pc)) ∧
    (s.pc < 256 → 256 ≤ s.pc + 1 → fetch s = .error (.outOfBoundsMem (s.pc + 1))) ∧
    (s.pc + 1 < 256 → 256 ≤ s.pc + 2 → fetch s = .error (.outOfBoundsMem (s.pc + 2)))

/-- The faults that come before any handler, in their order (60_exceptions.md section 3; the fault at the top of memory
is the spec's decision D5, and the opcode map its decision D2). -/
def Obligations.FetchAndDispatchFaultsInOrder : Prop :=
  ∀ s : State, s.run = .running →
    (256 ≤ s.pc → ∃ t, step s = .next t ∧ t.run = .faulted (.outOfBoundsMem s.pc)) ∧
    (s.pc = 254 ∨ s.pc = 255 → ∃ t, step s = .next t ∧ t.run = .faulted (.outOfBoundsMem 256)) ∧
    (s.pc ≤ 253 → lookup (s.byteAt s.pc) = none →
      ∃ t, step s = .next t ∧ t.run = .faulted (.unknownOpcode (s.byteAt s.pc) s.pc))

/-- A running machine always has a step: the cycle completes or faults, and never gets stuck (70_reset_and_hazards.md
section 2). -/
def Obligations.RunningAlwaysSteps : Prop := ∀ s : State, s.run = .running → ∃ t, step s = .next t

/-- In Halted and in Faulted the machine has no step (40_execution_cycle.md section 3). What `step` answers instead, a
refusal by name and the fault itself, is the model's choice (log 3, log 4). -/
def Obligations.HaltedAndFaultedHaveNoStep : Prop :=
  (∀ s t : State, s.run ≠ .running → step s ≠ .next t) ∧
  (∀ s : State, s.run = .halted → step s = .refused .halted) ∧
  (∀ (s : State) (f : Fault), s.run = .faulted f → step s = .fault f)

/-- A fault that ends a cycle is one the spec gives, with the information the spec gives (60_exceptions.md sections 1 and
2). A register it names is an operand of the instruction, the byte at `pc + 2` for ADD, MUL and CMP only; HLT and RET
name none, and LDI and POP raise no UnwrittenRegister. No step raises UnsupportedOperation or LoadError. -/
def Obligations.CycleFaultsAreTheSpecs : Prop :=
  ∀ s t f, step s = .next t → t.run = .faulted f →
    match f with
    | .unknownOpcode op a => a = s.pc ∧ op = s.byteAt s.pc ∧ lookup op = none
    | .outOfBoundsMem a => 256 ≤ a ∧ (a = s.pc ∨ a = s.pc + 1 ∨ a = s.pc + 2) ∧ ∀ b, s.pc ≤ b → b < a → b < 256
    | .outOfBoundsReg r => 8 ≤ r ∧ r < 256 ∧
        ∃ h, lookup (s.byteAt s.pc) = some h ∧ h ≠ .hlt ∧ h ≠ .ret ∧
          (r = (s.byteAt (s.pc + 1)).toNat ∨
            (h = .add ∨ h = .mul ∨ h = .cmp) ∧ r = (s.byteAt (s.pc + 2)).toNat)
    | .unsupportedOperation _ => False
    | .unwrittenRegister r => r < 7 ∧ s.isWritten r = false ∧
        ∃ h, lookup (s.byteAt s.pc) = some h ∧ h ≠ .hlt ∧ h ≠ .ret ∧ h ≠ .ldi ∧ h ≠ .pop ∧
          (r = (s.byteAt (s.pc + 1)).toNat ∨
            (h = .add ∨ h = .mul ∨ h = .cmp) ∧ r = (s.byteAt (s.pc + 2)).toNat)
    | .loadError _ => False

/-- R122: the two orders inside a cycle that software sees. The advance comes before the handler: CALL pushes the
address after the CALL, and HLT leaves `pc` past itself. The operand prefetch comes before the handler: a PUSH or CALL
that stores over its own operand byte, or over the byte after it, runs with the operand that stood there before, and the
top two addresses hold no instruction. -/
def Obligations.AdvanceAndPrefetchComeBeforeHandler : Prop :=
  ∀ s : State, s.mem.wf = true → s.run = .running →
    (s.pc + 2 < 256 → lookup (s.byteAt s.pc) = some .call → ∀ t, step s = .next t → ¬ t.Failed →
      (t.byteAt (pushAddr s)).toNat = s.pc + 2) ∧
    (s.pc + 2 < 256 → lookup (s.byteAt s.pc) = some .hlt → ∃ t, step s = .next t ∧ t.pc = s.pc + 1) ∧
    (s.pc + 2 < 256 → pushAddr s = s.pc + 1 ∨ pushAddr s = s.pc + 2 → ∀ r, r = (s.byteAt (s.pc + 1)).toNat →
      (lookup (s.byteAt s.pc) = some .push → step s = exec (.push r) { s with pc := s.pc + 2 }) ∧
      (lookup (s.byteAt s.pc) = some .call → step s = exec (.call r) { s with pc := s.pc + 2 })) ∧
    (s.pc = 254 ∨ s.pc = 255 → ∃ t, step s = .next t ∧ t.Failed)

/-! ### Whole-machine rules -/

/-- R72: no handler adds to `pc`, and only CALL, RET and JMP set it: after a step of any other instruction `pc` is the
advanced one, and after a step of those three it is a byte. -/
def Obligations.OnlyControlTransfersSetPc : Prop :=
  (∀ i s t, exec i s = .next t → i.handler ≠ .call → i.handler ≠ .ret → i.handler ≠ .jmp → ¬ t.Failed → t.pc = s.pc) ∧
  (∀ s t h, step s = .next t → ¬ t.Failed → lookup (s.byteAt s.pc) = some h →
    (h ≠ .call → h ≠ .ret → h ≠ .jmp → t.pc = s.pc + 1 + arity (s.byteAt s.pc)) ∧
    (h = .call ∨ h = .ret ∨ h = .jmp → t.pc < 256))

/-- Memory is written only by PUSH and CALL, and by each only in the cell below SP (20_memory.md section 3). -/
def Obligations.OnlyPushAndCallWriteMemory : Prop :=
  ∀ s t, step s = .next t → ¬ t.Failed →
    SameMemBut (pushAddr s) s t ∧
    (lookup (s.byteAt s.pc) ≠ some .push → lookup (s.byteAt s.pc) ≠ some .call → SameMem s t)

/-- FL is written only by CMP, which leaves exactly one of E, G, L set, at the positions of the spec's decision D3
(10_state.md section 5). -/
def Obligations.OnlyCmpWritesFlags : Prop :=
  ∀ s t, step s = .next t → ¬ t.Failed →
    (lookup (s.byteAt s.pc) ≠ some .cmp → t.fl = s.fl) ∧
    (lookup (s.byteAt s.pc) = some .cmp → t.fl = 0x01 ∨ t.fl = 0x02 ∨ t.fl = 0x04)

/-- No instruction reads FL (10_state.md section 5): two runs that differ in FL alone stay alike in everything else. -/
def Obligations.FlagsAreReadByNothing : Prop :=
  ∀ s t v, step s = .next t → ∃ w, step { s with fl := v } = .next { t with fl := w }

/-- A register other than SP changes only by LDI, ADD, MUL and POP, and only the one their first operand names
(10_state.md section 3; the instruction files). -/
def Obligations.OnlyNamedRegisterIsWritten : Prop :=
  ∀ s t j, step s = .next t → ¬ t.Failed → j ≠ 7 → (t.reg j ≠ s.reg j ∨ t.isWritten j ≠ s.isWritten j) →
    j = (s.byteAt (s.pc + 1)).toNat ∧
    ∃ h, lookup (s.byteAt s.pc) = some h ∧ (h = .ldi ∨ h = .add ∨ h = .mul ∨ h = .pop)

/-- SP changes only by PUSH, POP, CALL and RET, or by an instruction whose first operand is R7 (10_state.md
section 3). -/
def Obligations.SpChangesOnlyByStackOrOperandSeven : Prop :=
  ∀ s t, step s = .next t → ¬ t.Failed → t.sp ≠ s.sp →
    ∃ h, lookup (s.byteAt s.pc) = some h ∧
      (h = .push ∨ h = .pop ∨ h = .call ∨ h = .ret ∨
        ((h = .ldi ∨ h = .add ∨ h = .mul) ∧ (s.byteAt (s.pc + 1)).toNat = 7))

/-- The output grows only by PRN, by one byte, the value of the register it names (10_state.md section 6). -/
def Obligations.OnlyPrnOutputs : Prop :=
  ∀ s t, step s = .next t → ¬ t.Failed →
    (lookup (s.byteAt s.pc) ≠ some .prn → t.out = s.out) ∧
    (lookup (s.byteAt s.pc) = some .prn → t.out = s.out ++ [s.reg (s.byteAt (s.pc + 1)).toNat])

/-- Along any run the output only grows, by at most one byte a step (10_state.md section 6). -/
def Obligations.OutputGrowsAlongRuns : Prop :=
  ∀ n s t, reachesIn n s t → ¬ t.Failed → ∃ vs, t.out = s.out ++ vs ∧ vs.length ≤ n

/-- A run ends in exactly one of three ways: it halts, it fails, or it goes on for ever (70_reset_and_hazards.md
section 2). Where it ends it has one end, and no state after it. -/
def Obligations.RunEndsInExactlyOneWay : Prop :=
  ∀ s : State, s.run = .running →
    ((∃ n t, reachesIn n s t ∧ t.Final) ∨ (∃ n t, reachesIn n s t ∧ t.Failed) ∨
      (∀ n, ∃ t, reachesIn n s t ∧ t.run = .running)) ∧
    (∀ n t m u, reachesIn n s t → t.run ≠ .running → reachesIn m s u → m = n ∧ u = t ∨ m < n ∧ u.run = .running)

/-- A JMP to its own address changes nothing, so the run goes on for ever in the same state, and is safe
(44_control_transfer.md). -/
def Obligations.JmpToItselfNeverEnds : Prop :=
  ∀ s : State, s.run = .running → s.pc + 2 < 256 → lookup (s.byteAt s.pc) = some .jmp →
    s.Readable (s.byteAt (s.pc + 1)).toNat → (s.reg (s.byteAt (s.pc + 1)).toNat).toNat = s.pc →
    (∀ n, reachesIn n s s ∧ ∀ t, reachesIn n s t → t = s) ∧ s.Safe

/-- A byte written to memory is the opcode that the next fetch at its address reads (20_memory.md section 5). -/
def Obligations.WrittenByteIsFetched : Prop :=
  ∀ s t a v, s.mem.wf = true → memWrite a v s = .ok t → a + 2 < 256 →
    ∃ x, fetch { t with pc := a } = .ok x ∧ x.opcode = v

/-! ### HLT, LDI and PRN -/

/-- R79: HLT, whole. Its encoding and length; its effect and its frame; `pc` stays past it; at 254 and 255 it never
runs; and no other byte leads to Halted. -/
def Obligations.HltHaltsAndNothingElseDoes : Prop :=
  encode .hlt = [0b00000001] ∧ decode [0b00000001] = .ok (.hlt, []) ∧
  (∀ s, ∃ t, exec .hlt s = .next t ∧ t.run = .halted ∧ t.pc = s.pc ∧ SameRegs s t ∧ SameMem s t ∧
    t.fl = s.fl ∧ t.out = s.out) ∧
  (∀ s : State, s.run = .running → s.pc + 2 < 256 → s.byteAt s.pc = 0b00000001 →
    ∃ t, step s = .next t ∧ t.run = .halted ∧ t.pc = s.pc + 1 ∧ SameRegs s t ∧ SameMem s t ∧
      t.fl = s.fl ∧ t.out = s.out) ∧
  (∀ s t : State, s.pc = 254 ∨ s.pc = 255 → step s = .next t → t.run ≠ .halted) ∧
  (∀ s t : State, step s = .next t → t.run = .halted → s.byteAt s.pc = 0b00000001)

/-- R80: LDI, whole. Its encoding and length; the register gets the immediate as it is, R7 included, and all else but
that register is unchanged; an invalid index is the only fault; and a PRN of the register then emits the immediate. -/
def Obligations.LdiLoadsImmediate : Prop :=
  (∀ r imm : Byte, decode [0b10000010, r, imm] = .ok (.ldi r.toNat imm, [])) ∧
  (∀ s r imm, r < 8 →
    ∃ t, exec (.ldi r imm) s = .next t ∧ t.reg r = imm ∧ t.isWritten r = true ∧ SameRegsBut r s t ∧
      SameMem s t ∧ t.pc = s.pc ∧ t.fl = s.fl ∧ t.run = s.run ∧ t.out = s.out) ∧
  (∀ s imm, ∃ t, exec (.ldi 7 imm) s = .next t ∧ t.sp = imm) ∧
  (∀ s r imm, 8 ≤ r → ∃ t, exec (.ldi r imm) s = .next t ∧ t.run = .faulted (.outOfBoundsReg r)) ∧
  (∀ s t r imm, r < 8 → exec (.ldi r imm) s = .next t →
    ∃ u, exec (.prn r) t = .next u ∧ u.out = t.out ++ [imm])

/-- PRN of a readable register emits its value and changes nothing else (41_halt_load_print.md). -/
def Obligations.PrnEmitsRegister : Prop :=
  ∀ s r, s.Readable r →
    ∃ t, exec (.prn r) s = .next t ∧ t.out = s.out ++ [s.reg r] ∧ SameRegs s t ∧ SameMem s t ∧
      t.pc = s.pc ∧ t.fl = s.fl ∧ t.run = s.run

/-! ### The ALU, ADD, MUL and CMP -/

/-- R83: ADD of two bytes is their sum modulo 256, whatever the carry, with no flag update, and it is commutative. -/
def Obligations.AluAddIsSumModulo256 : Prop :=
  (∀ a b : Byte, ∃ v, aluApply .add a b = .ok { result := some v, flags := none } ∧
    v.toNat = (a.toNat + b.toNat) % 256) ∧
  (∀ a b : Byte, aluApply .add a b = aluApply .add b a) ∧
  aluApply .add 200 100 = .ok { result := some 44, flags := none } ∧
  aluApply .add 255 1 = .ok { result := some 0, flags := none } ∧
  aluApply .add 0 0 = .ok { result := some 0, flags := none }

/-- R84: MUL of two bytes is the low eight bits of the unsigned product, with no flag update, and it is commutative. -/
def Obligations.AluMulIsProductModulo256 : Prop :=
  (∀ a b : Byte, ∃ v, aluApply .mul a b = .ok { result := some v, flags := none } ∧
    v.toNat = (a.toNat * b.toNat) % 256) ∧
  (∀ a b : Byte, aluApply .mul a b = aluApply .mul b a) ∧
  aluApply .mul 16 16 = .ok { result := some 0, flags := none } ∧
  aluApply .mul 255 255 = .ok { result := some 1, flags := none } ∧
  aluApply .mul 15 17 = .ok { result := some 255, flags := none } ∧
  ∀ b, aluApply .mul 0 b = .ok { result := some 0, flags := none }

/-- CMP of two bytes is the unsigned three-way comparison, with no result (42_alu.md section 1): at the spec's positions
(D3, log 7), and, whatever the layout, greater, equal and less each give their own value. -/
def Obligations.AluCmpIsUnsignedThreeWay : Prop :=
  (∀ a b : Byte, ∃ v, aluApply .cmp a b = .ok { result := none, flags := some v } ∧
    (b.toNat < a.toNat → v = 0x02) ∧ (a.toNat = b.toNat → v = 0x01) ∧ (a.toNat < b.toNat → v = 0x04)) ∧
  (∀ (l : FlagLayout) (a b : Byte), l.equal ≠ l.greater → l.greater ≠ l.less → l.equal ≠ l.less →
    (cmpFlagsIn l a b = l.greater ↔ b.toNat < a.toNat) ∧ (cmpFlagsIn l a b = l.equal ↔ a.toNat = b.toNat) ∧
    (cmpFlagsIn l a b = l.less ↔ a.toNat < b.toNat))

/-- R100: the ALU raises UnsupportedOperation for any other operation, and no step of the machine raises it. -/
def Obligations.UnsupportedOperationIsAluOnly : Prop :=
  (∀ symbol a b, aluApply (.other symbol) a b = .error (.unsupportedOperation (.other symbol))) ∧
  (∀ op a b v, op = .add ∨ op = .mul ∨ op = .cmp → aluApply op a b ≠ .error (.unsupportedOperation v)) ∧
  (∀ s t op, step s = .next t → t.run ≠ .faulted (.unsupportedOperation op))

/-- ADD and MUL of readable registers write their first operand's register, modulo 256, and nothing else (42_alu.md
section 2); the two operands may be the same register, or R7. -/
def Obligations.AddAndMulWriteFirstOperand : Prop :=
  ∀ s a b, s.Readable a → s.Readable b →
    (∃ t, exec (.add a b) s = .next t ∧ (t.reg a).toNat = ((s.reg a).toNat + (s.reg b).toNat) % 256 ∧
      t.isWritten a = true ∧ SameRegsBut a s t ∧ SameMem s t ∧ t.pc = s.pc ∧ t.fl = s.fl ∧ t.run = s.run ∧
      t.out = s.out) ∧
    (∃ t, exec (.mul a b) s = .next t ∧ (t.reg a).toNat = ((s.reg a).toNat * (s.reg b).toNat) % 256 ∧
      t.isWritten a = true ∧ SameRegsBut a s t ∧ SameMem s t ∧ t.pc = s.pc ∧ t.fl = s.fl ∧ t.run = s.run ∧
      t.out = s.out)

/-- CMP of readable registers replaces FL by the result of the comparison, whatever FL was, and changes nothing else
(42_alu.md section 2); the positions are the spec's decision D3 (log 7). -/
def Obligations.CmpReplacesFlags : Prop :=
  ∀ s a b, s.Readable a → s.Readable b →
    ∃ t, exec (.cmp a b) s = .next t ∧
      ((s.reg b).toNat < (s.reg a).toNat → t.fl = 0x02) ∧ (s.reg a = s.reg b → t.fl = 0x01) ∧
      ((s.reg a).toNat < (s.reg b).toNat → t.fl = 0x04) ∧
      SameRegs s t ∧ SameMem s t ∧ t.pc = s.pc ∧ t.run = s.run ∧ t.out = s.out

/-! ### PUSH and POP -/

/-- PUSH of a readable register decrements SP modulo 256 and stores the register there, and changes nothing else
(43_stack.md). PUSH R7 stores the decremented SP: the spec's decision D10 (log 10). -/
def Obligations.PushStoresBelowSp : Prop :=
  ∀ s r, s.mem.wf = true → s.Readable r →
    ∃ t, exec (.push r) s = .next t ∧ t.sp = s.sp - 1 ∧ pushAddr s = (s.sp - 1).toNat ∧
      t.byteAt (pushAddr s) = (if r = 7 then s.sp - 1 else s.reg r) ∧ SameMemBut (pushAddr s) s t ∧
      SameRegsBut 7 s t ∧ t.pc = s.pc ∧ t.fl = s.fl ∧ t.run = s.run ∧ t.out = s.out

/-- POP into a register loads the byte at SP and increments SP modulo 256, and changes nothing else (43_stack.md).
POP R7 leaves SP at the popped byte plus one: the spec's decision D10 (log 10). -/
def Obligations.PopLoadsFromSp : Prop :=
  ∀ s r, r < 8 →
    ∃ t, exec (.pop r) s = .next t ∧ popAddr s = s.sp.toNat ∧
      (r ≠ 7 → t.reg r = s.byteAt (popAddr s) ∧ t.sp = s.sp + 1) ∧
      (r = 7 → t.sp = s.byteAt (popAddr s) + 1) ∧
      t.isWritten r = true ∧ SameRegsButSpAnd r s t ∧ SameMem s t ∧ t.pc = s.pc ∧ t.fl = s.fl ∧ t.run = s.run ∧
      t.out = s.out

/-- A PUSH and then a POP carry the pushed value to any register and bring SP back, or, for POP R7, leave SP at that
value plus one (43_stack.md; the clauses with R7 are the spec's decision D10, log 10). -/
def Obligations.PushThenPopRoundTrip : Prop :=
  ∀ s t r r', s.mem.wf = true → s.Readable r → r' < 8 → exec (.push r) s = .next t →
    ∃ u, exec (.pop r') t = .next u ∧
      (r' ≠ 7 → u.reg r' = (if r = 7 then s.sp - 1 else s.reg r) ∧ u.sp = s.sp) ∧
      (r' = 7 → u.sp = (if r = 7 then s.sp - 1 else s.reg r) + 1)

/-! ### CALL, RET and JMP -/

/-- CALL of a readable register stores the advanced `pc` below SP and goes to the register's value, and changes nothing
else (44_control_transfer.md). CALL R7 goes to the decremented SP: the spec's decision D10 (log 10). In a cycle the
stored byte is the address after the CALL; outside one, for a `pc` that is no byte, it is a free value (log 9). -/
def Obligations.CallStoresReturnAddressAndJumps : Prop :=
  ∀ s r, s.mem.wf = true → s.Readable r →
    ∃ t, exec (.call r) s = .next t ∧ t.sp = s.sp - 1 ∧ pushAddr s = (s.sp - 1).toNat ∧
      (s.pc < 256 → (t.byteAt (pushAddr s)).toNat = s.pc) ∧ SameMemBut (pushAddr s) s t ∧
      t.pc = (if r = 7 then s.sp - 1 else s.reg r).toNat ∧
      SameRegsBut 7 s t ∧ t.fl = s.fl ∧ t.run = s.run ∧ t.out = s.out

/-- RET goes to the byte at SP and increments SP modulo 256, on an empty stack too, and changes nothing else
(44_control_transfer.md). -/
def Obligations.RetLoadsPcFromSp : Prop :=
  ∀ s, ∃ t, exec .ret s = .next t ∧ popAddr s = s.sp.toNat ∧ t.pc = (s.byteAt (popAddr s)).toNat ∧
    t.sp = s.sp + 1 ∧ SameRegsBut 7 s t ∧ SameMem s t ∧ t.fl = s.fl ∧ t.run = s.run ∧ t.out = s.out

/-- JMP of a readable register goes to its value and changes nothing else (44_control_transfer.md). -/
def Obligations.JmpLoadsPcFromRegister : Prop :=
  ∀ s r, s.Readable r →
    ∃ t, exec (.jmp r) s = .next t ∧ t.pc = (s.reg r).toNat ∧ SameRegs s t ∧ SameMem s t ∧ t.fl = s.fl ∧
      t.run = s.run ∧ t.out = s.out

/-- A subroutine that leaves SP and the return address as it found them returns, by RET, to the address after the CALL,
with SP as it was before the CALL (44_control_transfer.md). -/
def Obligations.CallThenRetRoundTrip : Prop :=
  ∀ s t u r, s.mem.wf = true → s.Readable r → s.pc < 256 → exec (.call r) s = .next t →
    u.sp = t.sp → u.byteAt (popAddr t) = t.byteAt (popAddr t) →
    ∃ v, exec .ret u = .next v ∧ v.pc = s.pc ∧ v.sp = s.sp

/-! ### Faults of the operands -/

/-- R17: indices 0 to 7 are valid, and any other raises OutOfBounds in a read and in a write. -/
def Obligations.RegisterIndexIsValidBelowEight : Prop :=
  ∀ (s : State) (i : Nat) (v : Int),
    (8 ≤ i → readReg i s = .error (.outOfBoundsReg i) ∧ writeReg i v s = .error (.outOfBoundsReg i)) ∧
    (i < 8 → readReg i s ≠ .error (.outOfBoundsReg i) ∧ ∃ t, writeReg i v s = .ok t)

/-- R99: which instructions raise OutOfBounds for a register operand, ADD, MUL and CMP checking a, then b; HLT and RET
cannot raise it. -/
def Obligations.InvalidRegisterOperandFaults : Prop :=
  (∀ s r imm i, 8 ≤ r →
    i = .ldi r imm ∨ i = .prn r ∨ i = .push r ∨ i = .pop r ∨ i = .call r ∨ i = .jmp r →
    ∃ t, exec i s = .next t ∧ t.run = .faulted (.outOfBoundsReg r)) ∧
  (∀ s a b i, 8 ≤ a → i = .add a b ∨ i = .mul a b ∨ i = .cmp a b →
    ∃ t, exec i s = .next t ∧ t.run = .faulted (.outOfBoundsReg a)) ∧
  (∀ s a b i, s.Readable a → 8 ≤ b → i = .add a b ∨ i = .mul a b ∨ i = .cmp a b →
    ∃ t, exec i s = .next t ∧ t.run = .faulted (.outOfBoundsReg b)) ∧
  (∀ s i r, s.run = .running → i = .hlt ∨ i = .ret →
    ∃ t, exec i s = .next t ∧ t.run ≠ .faulted (.outOfBoundsReg r))

/-- The read of an unwritten register raises UnwrittenRegister, in ADD, MUL and CMP for a, then b; LDI and POP read no
such register, and write one (60_exceptions.md section 2; the fault is the spec's decision D4). -/
def Obligations.UnwrittenRegisterReadFaults : Prop :=
  (∀ s r i, r < 7 → s.isWritten r = false → i = .prn r ∨ i = .push r ∨ i = .call r ∨ i = .jmp r →
    ∃ t, exec i s = .next t ∧ t.run = .faulted (.unwrittenRegister r)) ∧
  (∀ s a b i, a < 7 → s.isWritten a = false → i = .add a b ∨ i = .mul a b ∨ i = .cmp a b →
    ∃ t, exec i s = .next t ∧ t.run = .faulted (.unwrittenRegister a)) ∧
  (∀ s a b i, s.Readable a → b < 7 → s.isWritten b = false → i = .add a b ∨ i = .mul a b ∨ i = .cmp a b →
    ∃ t, exec i s = .next t ∧ t.run = .faulted (.unwrittenRegister b)) ∧
  (∀ s r imm i, r < 7 → i = .ldi r imm ∨ i = .pop r →
    ∃ t, exec i s = .next t ∧ t.run = s.run ∧ t.isWritten r = true)

/-! ### Memory and registers -/

/-- R39: MemRead gives the byte of a cell that exists and faults at any other address. -/
def Obligations.MemReadIsBounded : Prop :=
  ∀ s a, (a < 256 → memRead a s = .ok (s.byteAt a)) ∧ (256 ≤ a → memRead a s = .error (.outOfBoundsMem a))

/-- MemWrite stores one byte in a cell that exists and faults at any other address; a read then gives that byte, and
every other cell reads as before (20_memory.md sections 1 and 5). -/
def Obligations.MemWriteStoresOneByte : Prop :=
  ∀ s a v, s.mem.wf = true →
    (a < 256 → ∃ t, memWrite a v s = .ok t ∧ memRead a t = .ok v ∧ SameMemBut a s t ∧ SameRegs s t ∧
      t.pc = s.pc ∧ t.fl = s.fl ∧ t.run = s.run ∧ t.out = s.out) ∧
    (256 ≤ a → memWrite a v s = .error (.outOfBoundsMem a))

/-- A register write reduces any integer modulo 256 and makes the cell written, and it writes that cell only
(10_state.md section 3; that it covers the arithmetic of SP is the spec's decision D11, log 11). -/
def Obligations.RegisterWriteReducesModulo256 : Prop :=
  ∀ (s : State) (i : Nat) (v : Int), i < 8 →
    ∃ t, writeReg i v s = .ok t ∧ ((t.reg i).toNat : Int) = v % 256 ∧ readReg i t = .ok (t.reg i) ∧ SameRegsBut i s t

/-! ### Encoding -/

/-- R55: the operand count is bits 7:6 of the opcode, for every byte value, and the value 3 selects no instruction. -/
def Obligations.ArityIsBits7And6 : Prop :=
  ∀ op : Byte, arity op = op.toNat / 64 ∧ (arity op = 3 → lookup op = none)

/-- The eleven encodings of spec/30_encoding.md section 3, written out bit by bit (eight of the opcodes are the spec's
decision D2, log 6). -/
def Obligations.OpcodeWordsDecodeAsTheTable : Prop :=
  decode [0b00000001] = .ok (.hlt, []) ∧
  decode [0b10000010, 0b00000000, 0b00001000] = .ok (.ldi 0 8, []) ∧
  decode [0b01000111, 0b00000000] = .ok (.prn 0, []) ∧
  decode [0b10100000, 0b00000001, 0b00000010] = .ok (.add 1 2, []) ∧
  decode [0b10100010, 0b00000001, 0b00000010] = .ok (.mul 1 2, []) ∧
  decode [0b10100111, 0b00000001, 0b00000010] = .ok (.cmp 1 2, []) ∧
  decode [0b01000101, 0b00000011] = .ok (.push 3, []) ∧
  decode [0b01000110, 0b00000100] = .ok (.pop 4, []) ∧
  decode [0b01010000, 0b00000101] = .ok (.call 5, []) ∧
  decode [0b00010001] = .ok (.ret, []) ∧
  decode [0b01010100, 0b00000110] = .ok (.jmp 6, [])

/-- Every byte that is not one of the eleven opcodes is illegal: 245 values, among them 0x00 and every value from 0xC0
(30_encoding.md section 4; eight of the opcodes are the spec's decision D2, log 6). -/
def Obligations.OtherBytesAreIllegal : Prop :=
  (∀ op : Byte, lookup op = none ↔
    op ∉ ([0x01, 0x82, 0x47, 0xA0, 0xA2, 0xA7, 0x45, 0x46, 0x50, 0x11, 0x54] : List Byte)) ∧
  ((List.range 256).filter fun n => lookup (BitVec.ofNat 8 n) == none).length = 245 ∧
  (∀ op : Byte, 0xC0 ≤ op.toNat → ∀ rest, decode (op :: rest) = .error (.unknownOpcode op))

/-- Under every opcode map that meets the conditions of 30_encoding.md section 3, and so under the machine's, decoding
the encoding of a well-formed instruction gives it back, with the bytes after it. -/
def Obligations.DecodeOfEncode : Prop :=
  opcodeMap.Wf ∧
  ∀ (m : OpcodeMap) (i : Instr) (rest : List Byte), m.Wf → i.wellFormed = true →
    decodeWith m (encodeWith m i ++ rest) = .ok (i, rest)

/-- Under every opcode map, bytes that decode are the encoding of a well-formed instruction and the bytes after it: no
two encodings mean the same, and no bit is dropped. -/
def Obligations.EncodeOfDecode : Prop :=
  ∀ (m : OpcodeMap) (bytes rest : List Byte) (i : Instr), decodeWith m bytes = .ok (i, rest) →
    i.wellFormed = true ∧ bytes = encodeWith m i ++ rest

/-! ### Load and report -/

/-- An image of at most 256 bytes, one binary token per line, fills memory from address 0 and leaves the rest of the
constructed machine as it was (70_reset_and_hazards.md section 1). -/
def Obligations.LoadFillsMemoryFromZero : Prop :=
  ∀ init (bytes : List Byte), bytes.length ≤ 256 →
    let t := boot init (some (imageText bytes))
    (∀ k, t.byteAt k = bytes[k]?.getD 0) ∧ t = { State.construct init with mem := t.mem }

/-- A comment and the blanks around a token change nothing, and a line with nothing else takes no address
(70_reset_and_hazards.md section 1; the trimming is the spec's decision D15, log 14). -/
def Obligations.CommentsAndBlanksAreIgnored : Prop :=
  (∀ l rest : List Char, '#' ∉ l → lineToken (l ++ '#' :: rest) = lineToken l) ∧
  (∀ p l q : List Char, (∀ c ∈ p, isBlank c = true) → (∀ c ∈ q, isBlank c = true) → '#' ∉ l →
    lineToken (p ++ l ++ q) = lineToken l) ∧
  (∀ p rest : List Char, (∀ c ∈ p, isBlank c = true) →
    lineToken p = .blank ∧ lineToken (p ++ '#' :: rest) = .blank) ∧
  (∀ n a l ls s, lineToken l = .blank → loadLines n a (l :: ls) s = loadLines (n + 1) a ls s)

/-- A malformed token anywhere in the image is a LoadError, and so is a missing file, with exit status 2; no cycle runs
after either (70_reset_and_hazards.md section 1). A token that neither starts nor ends with a blank is malformed when it
holds any character but `0` and `1`, a blank inside it too. That a malformed line covers a token over 255, and that blanks
around a token are trimmed, is the spec's decision D15; where a line ends is the model's choice (log 14), and so is what
the LoadError records, a line's number or none (log 15). -/
def Obligations.BadImageIsLoadError : Prop :=
  (∀ l : List Char, '#' ∉ l → (∀ c, l.head? = some c → isBlank c = false) →
    (∀ c, l.getLast? = some c → isBlank c = false) → (∃ c ∈ l, c ≠ '0' ∧ c ≠ '1') →
    lineToken l = .malformed) ∧
  (∀ init text l, l ∈ splitLines text → lineToken l = .malformed →
    ∃ n, (boot init (some text)).run = .faulted (.loadError (some n))) ∧
  (∀ init, (boot init none).run = .faulted (.loadError none) ∧ exitStatus (boot init none) = some 2) ∧
  (∀ init image n, (boot init image).run = .faulted (.loadError n) → ∀ t, step (boot init image) ≠ .next t)

/-- More than 256 tokens, and a token over 255, are load errors (70_reset_and_hazards.md section 1: the spec's decision
D15, log 14); the line named is the model's choice (log 15). -/
def Obligations.TooLongImageIsLoadError : Prop :=
  (∀ init (bytes : List Byte), 256 < bytes.length →
    (boot init (some (imageText bytes))).run = .faulted (.loadError (some 257))) ∧
  (∀ (l : List Char) (v : Nat), l ≠ [] → (∀ c ∈ l, c = '0' ∨ c = '1') → binaryValue 0 l = some v →
    (v < 256 → lineToken l = .byte (BitVec.ofNat 8 v)) ∧ (256 ≤ v → lineToken l = .malformed))

/-- The exit status (70_reset_and_hazards.md section 2): none while running, 0 after HLT, 2 for a missing file, and not 0
after any fault, whatever the free values of the model are (log 17). -/
def Obligations.ExitStatusSeparatesHaltFromFault : Prop :=
  ∀ s : State,
    (s.run = .running → exitStatus s = none) ∧ (s.run = .halted → exitStatus s = some 0) ∧
    (s.run = .faulted (.loadError none) → exitStatus s = some 2) ∧
    (∀ f, s.run = .faulted f → ∃ n, exitStatus s = some n ∧ n ≠ 0)
end

