-- ==== Sys2Proof/Laws/Decode.lean ====
section
/-! SUPPORT. The dispatch table and the operand bytes. -/

namespace Sys2Proof

variable {m : OpcodeMap} {h : Handler} {op : Byte}

theorem mem_all (h : Handler) : h ∈ Handler.all := by cases h <;> simp [Handler.all]

/-- A handler the table gives has the byte as its opcode. -/
theorem opcode_of_lookupIn (e : lookupIn m op = some h) : m h = op := by
  have := List.find?_some e
  simpa using this

/-- The table gives each handler for its opcode. -/
theorem lookupIn_opcode (hm : m.Wf) (h : Handler) : lookupIn m (m h) = some h := by
  cases e : lookupIn m (m h) with
  | none =>
    have := List.find?_eq_none.mp e h (mem_all h)
    simp at this
  | some h' =>
    rw [hm.2.1 h' (mem_all h') h (mem_all h) (opcode_of_lookupIn e)]

/-- The table has no row for a byte that is no handler's opcode. -/
theorem lookupIn_eq_none_iff : lookupIn m op = none ↔ ∀ h, m h ≠ op := by
  unfold lookupIn
  rw [List.find?_eq_none]
  exact ⟨fun e h => by simpa using e h (mem_all h), fun e h _ => by simpa using e h⟩

/-- The machine's opcode map meets the three conditions of spec/30_encoding.md R60. -/
theorem opcodeMap_conditions : OpcodeMap.Wf opcodeMap := by decide

/-- A register operand that fits comes back from its byte. -/
theorem operandByte_toNat {r : Nat} (h : operandFits r = true) : (operandByte r).toNat = r := by
  have : r < 256 := by simpa [operandFits] using h
  simp [operandByte, this]

@[simp] theorem operandByte_of_toNat (b : Byte) : operandByte b.toNat = b := by simp [operandByte]

@[simp] theorem operandFits_toNat (b : Byte) : operandFits b.toNat = true := by simp [operandFits, b.isLt]

/-- An instruction has as many operand bytes as its format says. -/
theorem operandBytes_length (i : Instr) : i.operandBytes.length = i.handler.format.operandCount := by
  cases i <;> rfl

/-- A handler rebuilds a well-formed instruction from its operand bytes. -/
theorem instr_operandBytes (i : Instr) (hi : i.wellFormed = true) : i.handler.instr i.operandBytes = some i := by
  cases i <;>
    simp only [Instr.wellFormed, Bool.and_eq_true] at hi <;>
    simp [Instr.handler, Instr.operandBytes, Handler.instr, nullary, unary, binary, operandByte_toNat, hi]

/-- What a handler makes of operand bytes is its own instruction, with exactly those bytes, and well formed. -/
theorem instr_eq_some {i : Instr} {ops : List Byte} (e : h.instr ops = some i) :
    i.handler = h ∧ i.operandBytes = ops ∧ i.wellFormed = true := by
  rcases ops with _ | ⟨x, _ | ⟨y, _ | ⟨z, zs⟩⟩⟩ <;> cases h <;>
    simp only [Handler.instr, nullary, unary, binary, Option.some.injEq, reduceCtorEq] at e <;> subst e <;>
    simp [Instr.handler, Instr.operandBytes, Instr.wellFormed]

/-- A handler whose operand bytes are as many as its format says makes an instruction of them. -/
theorem instr_isSome {ops : List Byte} (e : ops.length = h.format.operandCount) : ∃ i, h.instr ops = some i := by
  rcases ops with _ | ⟨x, _ | ⟨y, _ | ⟨z, zs⟩⟩⟩ <;> cases h <;>
    simp [Handler.format, Format.operandCount] at e <;> exact ⟨_, rfl⟩

end Sys2Proof
end

