-- ==== Sys2Proof/Laws/Memory.lean ====
section
/-! SUPPORT. The laws of memory: reading after writing, and the canonical form. -/

namespace Sys2Proof.Machine

open Sys2Proof

/-- Writing one cell leaves every other cell alone. -/
theorem read_write_other {m : Memory} {a b : Nat} {v : Byte} (h : b ≠ a) : (m.write a v).read b = m.read b := by
  induction m with
  | nil => by_cases hv : v = unlistedByte <;> simp [Memory.write, Memory.read, hv, h]
  | cons c m ih =>
    obtain ⟨x, w⟩ := c
    simp only [Memory.write]
    split
    · split <;> simp [Memory.read, h]
    · split
      · next hx => subst hx; split <;> simp [Memory.read, h]
      · simp [Memory.read, ih]

/-- A cell below every listed address reads as unlisted. -/
theorem read_of_lt {m : Memory} {lo a : Nat} (hm : Memory.wfFrom lo m = true) (h : a < lo) :
    m.read a = unlistedByte := by
  induction m generalizing lo with
  | nil => rfl
  | cons c m ih =>
    obtain ⟨x, w⟩ := c
    simp only [Memory.wfFrom, Bool.and_eq_true, decide_eq_true_eq] at hm
    simp only [Memory.read]
    rw [if_neg (by omega)]
    exact ih hm.2 (by omega)

/-- Reading back what was written. -/
theorem read_write_same_from {m : Memory} {lo a : Nat} {v : Byte} (hm : Memory.wfFrom lo m = true) :
    (m.write a v).read a = v := by
  induction m generalizing lo with
  | nil => by_cases hv : v = unlistedByte <;> simp [Memory.write, Memory.read, hv]
  | cons c m ih =>
    obtain ⟨x, w⟩ := c
    simp only [Memory.wfFrom, Bool.and_eq_true, decide_eq_true_eq] at hm
    simp only [Memory.write]
    split
    · next hax =>
      split
      · next hv => subst hv; simp only [Memory.read]; rw [if_neg (by omega)]; exact read_of_lt hm.2 (by omega)
      · simp [Memory.read]
    · split
      · next hax =>
        subst hax
        split
        · next hv => subst hv; exact read_of_lt hm.2 (by omega)
        · simp [Memory.read]
      · next hax => simp [Memory.read, hax, ih hm.2]

theorem read_write_same {m : Memory} {a : Nat} {v : Byte} (hm : m.wf = true) : (m.write a v).read a = v :=
  read_write_same_from hm

theorem wfFrom_mono {m : Memory} {lo lo' : Nat} (h : lo' ≤ lo) (hm : Memory.wfFrom lo m = true) :
    Memory.wfFrom lo' m = true := by
  cases m with
  | nil => rfl
  | cons c m =>
    simp only [Memory.wfFrom, Bool.and_eq_true, decide_eq_true_eq] at hm ⊢
    exact ⟨⟨⟨by omega, hm.1.1.2⟩, hm.1.2⟩, hm.2⟩

theorem write_wfFrom {m : Memory} {lo a : Nat} {v : Byte} (hm : Memory.wfFrom lo m = true) (hlo : lo ≤ a)
    (ha : a < 256) : Memory.wfFrom lo (m.write a v) = true := by
  induction m generalizing lo with
  | nil => by_cases hv : v = unlistedByte <;> simp [Memory.write, Memory.wfFrom, hv, hlo, Config.memSize, ha]
  | cons c m ih =>
    obtain ⟨x, w⟩ := c
    have hm' := hm
    simp only [Memory.wfFrom, Bool.and_eq_true, decide_eq_true_eq] at hm
    simp only [Memory.write]
    split
    · next hax =>
      split
      · exact hm'
      · next hv =>
        simp only [Memory.wfFrom, Bool.and_eq_true, decide_eq_true_eq]
        exact ⟨⟨⟨hlo, ha⟩, hv⟩, ⟨⟨by omega, hm.1.1.2⟩, hm.1.2⟩, hm.2⟩
    · split
      · next hax =>
        subst hax
        split
        · exact wfFrom_mono (by omega) hm.2
        · next hv =>
          simp only [Memory.wfFrom, Bool.and_eq_true, decide_eq_true_eq]
          exact ⟨⟨⟨hlo, ha⟩, hv⟩, hm.2⟩
      · simp only [Memory.wfFrom, Bool.and_eq_true, decide_eq_true_eq]
        exact ⟨hm.1, ih hm.2 (by omega)⟩

/-- A write to a cell that exists keeps the canonical form. -/
theorem write_wf {m : Memory} {a : Nat} {v : Byte} (hm : m.wf = true) (ha : a < 256) : (m.write a v).wf = true :=
  write_wfFrom hm (Nat.zero_le a) ha

/-- `MemWrite` keeps the canonical form. -/
theorem memWrite_wf {a : Nat} {v : Byte} {s t : State} (hs : s.mem.wf = true) (h : memWrite a v s = .ok t) :
    t.mem.wf = true := by
  unfold memWrite at h
  split at h
  · cases h
  · next ha => cases h; exact write_wf hs (by simpa [Config.memSize] using ha)

/-- Placing bytes keeps the canonical form. -/
theorem placeBytes_wf {vs : List Byte} {a : Nat} {s : State} (hs : s.mem.wf = true) :
    (placeBytes vs a s).mem.wf = true := by
  induction vs generalizing a s with
  | nil => exact hs
  | cons v vs ih =>
    simp only [placeBytes]
    apply ih
    split
    · next ha => exact write_wf hs (by simpa [Config.memSize] using ha)
    · exact hs

/-- The memory at reset is in the canonical form. -/
theorem reset_mem_wf : State.reset.mem.wf = true := rfl

/-- Two memories in the canonical form that read alike are equal data. -/
theorem eq_of_read_from {m m' : Memory} {lo : Nat} (hm : Memory.wfFrom lo m = true) (hm' : Memory.wfFrom lo m' = true)
    (h : ∀ a, m.read a = m'.read a) : m = m' := by
  induction m generalizing lo m' with
  | nil =>
    cases m' with
    | nil => rfl
    | cons c m' =>
      obtain ⟨x, w⟩ := c
      simp only [Memory.wfFrom, Bool.and_eq_true, decide_eq_true_eq] at hm'
      have := h x
      simp only [Memory.read, if_true] at this
      exact absurd this.symm hm'.1.2
  | cons c m ih =>
    obtain ⟨x, w⟩ := c
    cases m' with
    | nil =>
      simp only [Memory.wfFrom, Bool.and_eq_true, decide_eq_true_eq] at hm
      have := h x
      simp only [Memory.read, if_true] at this
      exact absurd this hm.1.2
    | cons c' m' =>
      obtain ⟨y, u⟩ := c'
      simp only [Memory.wfFrom, Bool.and_eq_true, decide_eq_true_eq] at hm hm'
      have hxy : x = y := by
        rcases Nat.lt_trichotomy x y with hlt | heq | hgt
        · have := h x
          simp only [Memory.read, if_true] at this
          rw [if_neg (by omega), read_of_lt hm'.2 (by omega)] at this
          exact absurd this hm.1.2
        · exact heq
        · have := h y
          simp only [Memory.read, if_true] at this
          rw [if_neg (by omega), read_of_lt hm.2 (by omega)] at this
          exact absurd this.symm hm'.1.2
      subst hxy
      have hw : w = u := by simpa [Memory.read] using h x
      subst hw
      have : m = m' := by
        refine ih hm.2 hm'.2 fun a => ?_
        by_cases ha : a = x
        · subst ha; rw [read_of_lt hm.2 (by omega), read_of_lt hm'.2 (by omega)]
        · simpa [Memory.read, ha] using h a
      rw [this]

theorem eq_of_read {m m' : Memory} (hm : m.wf = true) (hm' : m'.wf = true) (h : ∀ a, m.read a = m'.read a) :
    m = m' := eq_of_read_from hm hm' h

end Sys2Proof.Machine
end

