-- ==== Sys2Proof/Laws/State.lean ====
section
/-! SUPPORT. One lemma per field per update of the state, and of the register accessors, all tagged for simp. -/

namespace Sys2Proof.Machine

open Sys2Proof

variable (s : State) (i j : Nat) (v : Byte) (n : Nat) (f : Fault)

@[simp] theorem setReg_mem : (s.setReg i v).mem = s.mem := rfl
@[simp] theorem setReg_pc : (s.setReg i v).pc = s.pc := rfl
@[simp] theorem setReg_fl : (s.setReg i v).fl = s.fl := rfl
@[simp] theorem setReg_run : (s.setReg i v).run = s.run := rfl
@[simp] theorem setReg_out : (s.setReg i v).out = s.out := rfl

@[simp] theorem decSp_mem : (decSp s).mem = s.mem := rfl
@[simp] theorem decSp_pc : (decSp s).pc = s.pc := rfl
@[simp] theorem decSp_fl : (decSp s).fl = s.fl := rfl
@[simp] theorem decSp_run : (decSp s).run = s.run := rfl
@[simp] theorem decSp_out : (decSp s).out = s.out := rfl

@[simp] theorem incSp_mem : (incSp s).mem = s.mem := rfl
@[simp] theorem incSp_pc : (incSp s).pc = s.pc := rfl
@[simp] theorem incSp_fl : (incSp s).fl = s.fl := rfl
@[simp] theorem incSp_run : (incSp s).run = s.run := rfl
@[simp] theorem incSp_out : (incSp s).out = s.out := rfl

@[simp] theorem advancePc_mem : (advancePc n s).mem = s.mem := rfl
@[simp] theorem advancePc_regs : (advancePc n s).regs = s.regs := rfl
@[simp] theorem advancePc_written : (advancePc n s).written = s.written := rfl
@[simp] theorem advancePc_pc : (advancePc n s).pc = s.pc + 1 + n := rfl
@[simp] theorem advancePc_fl : (advancePc n s).fl = s.fl := rfl
@[simp] theorem advancePc_run : (advancePc n s).run = s.run := rfl
@[simp] theorem advancePc_out : (advancePc n s).out = s.out := rfl

@[simp] theorem loadPc_mem : (loadPc v s).mem = s.mem := rfl
@[simp] theorem loadPc_regs : (loadPc v s).regs = s.regs := rfl
@[simp] theorem loadPc_written : (loadPc v s).written = s.written := rfl
@[simp] theorem loadPc_pc : (loadPc v s).pc = v.toNat := rfl
@[simp] theorem loadPc_fl : (loadPc v s).fl = s.fl := rfl
@[simp] theorem loadPc_run : (loadPc v s).run = s.run := rfl
@[simp] theorem loadPc_out : (loadPc v s).out = s.out := rfl

@[simp] theorem setFlags_mem : (setFlags v s).mem = s.mem := rfl
@[simp] theorem setFlags_regs : (setFlags v s).regs = s.regs := rfl
@[simp] theorem setFlags_written : (setFlags v s).written = s.written := rfl
@[simp] theorem setFlags_pc : (setFlags v s).pc = s.pc := rfl
@[simp] theorem setFlags_fl : (setFlags v s).fl = v := rfl
@[simp] theorem setFlags_run : (setFlags v s).run = s.run := rfl
@[simp] theorem setFlags_out : (setFlags v s).out = s.out := rfl

@[simp] theorem emit_mem : (emit v s).mem = s.mem := rfl
@[simp] theorem emit_regs : (emit v s).regs = s.regs := rfl
@[simp] theorem emit_written : (emit v s).written = s.written := rfl
@[simp] theorem emit_pc : (emit v s).pc = s.pc := rfl
@[simp] theorem emit_fl : (emit v s).fl = s.fl := rfl
@[simp] theorem emit_run : (emit v s).run = s.run := rfl
@[simp] theorem emit_out : (emit v s).out = s.out ++ [v] := rfl

@[simp] theorem haltEngine_mem : (haltEngine s).mem = s.mem := rfl
@[simp] theorem haltEngine_regs : (haltEngine s).regs = s.regs := rfl
@[simp] theorem haltEngine_written : (haltEngine s).written = s.written := rfl
@[simp] theorem haltEngine_pc : (haltEngine s).pc = s.pc := rfl
@[simp] theorem haltEngine_fl : (haltEngine s).fl = s.fl := rfl
@[simp] theorem haltEngine_run : (haltEngine s).run = .halted := rfl
@[simp] theorem haltEngine_out : (haltEngine s).out = s.out := rfl

@[simp] theorem raiseFault_mem : (raiseFault f s).mem = s.mem := rfl
@[simp] theorem raiseFault_regs : (raiseFault f s).regs = s.regs := rfl
@[simp] theorem raiseFault_written : (raiseFault f s).written = s.written := rfl
@[simp] theorem raiseFault_pc : (raiseFault f s).pc = s.pc := rfl
@[simp] theorem raiseFault_fl : (raiseFault f s).fl = s.fl := rfl
@[simp] theorem raiseFault_run : (raiseFault f s).run = .faulted f := rfl
@[simp] theorem raiseFault_out : (raiseFault f s).out = s.out := rfl

/-! ### The register accessors -/

theorem reg_congr {s t : State} (h : t.regs = s.regs) : t.reg i = s.reg i := by simp [State.reg, h]

theorem isWritten_congr {s t : State} (h : t.written = s.written) : t.isWritten i = s.isWritten i := by
  simp [State.isWritten, h]

theorem byteAt_congr {s t : State} (h : t.mem = s.mem) : t.byteAt i = s.byteAt i := by simp [State.byteAt, h]

@[simp] theorem byteAt_with_mem (m : Memory) : ({ s with mem := m } : State).byteAt i = m.read i := rfl
@[simp] theorem reg_with_mem (m : Memory) : ({ s with mem := m } : State).reg i = s.reg i := rfl
@[simp] theorem isWritten_with_mem (m : Memory) : ({ s with mem := m } : State).isWritten i = s.isWritten i := rfl
@[simp] theorem sp_with_mem (m : Memory) : ({ s with mem := m } : State).sp = s.sp := rfl

@[simp] theorem advancePc_reg : (advancePc n s).reg i = s.reg i := rfl
@[simp] theorem loadPc_reg : (loadPc v s).reg i = s.reg i := rfl
@[simp] theorem setFlags_reg : (setFlags v s).reg i = s.reg i := rfl
@[simp] theorem emit_reg : (emit v s).reg i = s.reg i := rfl
@[simp] theorem haltEngine_reg : (haltEngine s).reg i = s.reg i := rfl
@[simp] theorem raiseFault_reg : (raiseFault f s).reg i = s.reg i := rfl

@[simp] theorem advancePc_isWritten : (advancePc n s).isWritten i = s.isWritten i := rfl
@[simp] theorem loadPc_isWritten : (loadPc v s).isWritten i = s.isWritten i := rfl
@[simp] theorem setFlags_isWritten : (setFlags v s).isWritten i = s.isWritten i := rfl
@[simp] theorem emit_isWritten : (emit v s).isWritten i = s.isWritten i := rfl
@[simp] theorem haltEngine_isWritten : (haltEngine s).isWritten i = s.isWritten i := rfl
@[simp] theorem raiseFault_isWritten : (raiseFault f s).isWritten i = s.isWritten i := rfl

@[simp] theorem advancePc_sp : (advancePc n s).sp = s.sp := rfl
@[simp] theorem loadPc_sp : (loadPc v s).sp = s.sp := rfl
@[simp] theorem setFlags_sp : (setFlags v s).sp = s.sp := rfl
@[simp] theorem emit_sp : (emit v s).sp = s.sp := rfl
@[simp] theorem haltEngine_sp : (haltEngine s).sp = s.sp := rfl
@[simp] theorem raiseFault_sp : (raiseFault f s).sp = s.sp := rfl

@[simp] theorem setReg_byteAt : (s.setReg i v).byteAt j = s.byteAt j := rfl
@[simp] theorem decSp_byteAt : (decSp s).byteAt i = s.byteAt i := rfl
@[simp] theorem incSp_byteAt : (incSp s).byteAt i = s.byteAt i := rfl
@[simp] theorem advancePc_byteAt : (advancePc n s).byteAt i = s.byteAt i := rfl
@[simp] theorem loadPc_byteAt : (loadPc v s).byteAt i = s.byteAt i := rfl
@[simp] theorem setFlags_byteAt : (setFlags v s).byteAt i = s.byteAt i := rfl
@[simp] theorem emit_byteAt : (emit v s).byteAt i = s.byteAt i := rfl
@[simp] theorem haltEngine_byteAt : (haltEngine s).byteAt i = s.byteAt i := rfl
@[simp] theorem raiseFault_byteAt : (raiseFault f s).byteAt i = s.byteAt i := rfl

variable {s i j v}

/-- Reading a register after writing one. -/
theorem setReg_reg : (s.setReg i v).reg j = if j = i ∧ i < 8 then v else s.reg j := by
  unfold State.setReg State.reg
  by_cases hj : j = i
  · subst hj
    by_cases hi : j < 8 <;> simp [hi]
  · simp [hj, Ne.symm hj]

/-- The mark of a register after writing one. -/
theorem setReg_isWritten : (s.setReg i v).isWritten j = (decide (j = i) || s.isWritten j) := by
  unfold State.setReg State.isWritten
  by_cases hj : j = i
  · subst hj
    by_cases hi : j < 7 <;> simp [hi]
  · simp [hj, Ne.symm hj]

@[simp] theorem setReg_reg_same (hi : i < 8) : (s.setReg i v).reg i = v := by simp [setReg_reg, hi]

@[simp] theorem setReg_reg_other (h : j ≠ i) : (s.setReg i v).reg j = s.reg j := by simp [setReg_reg, h]

@[simp] theorem setReg_isWritten_same : (s.setReg i v).isWritten i = true := by simp [setReg_isWritten]

@[simp] theorem setReg_isWritten_other (h : j ≠ i) : (s.setReg i v).isWritten j = s.isWritten j := by
  simp [setReg_isWritten, h]

/-- R7 and the cells that do not exist carry no mark. -/
theorem isWritten_of_ge (h : 7 ≤ i) : s.isWritten i = true := by
  simp [State.isWritten, Vector.getElem?_eq_none h]

@[simp] theorem isWritten_sp : s.isWritten 7 = true := isWritten_of_ge (Nat.le_refl 7)

theorem sp_eq_reg : s.sp = s.reg 7 := rfl

end Sys2Proof.Machine
end

