-- ==== Sys2Proof/Laws/Word.lean ====
section
/-! SUPPORT. What the reduction modulo 256 gives. -/

namespace Sys2Proof

@[simp] theorem narrow_natCast (n : Nat) : narrow (n : Int) = BitVec.ofNat 8 n := by
  simp [narrow]

theorem toNat_narrow_natCast (n : Nat) : (narrow (n : Int)).toNat = n % 256 := by simp

@[simp] theorem narrow_toNat (v : Byte) : narrow (v.toNat : Int) = v := by simp

theorem toInt_mod_narrow (v : Int) : ((narrow v).toNat : Int) = v % 256 := by
  simp [narrow, BitVec.toNat_ofInt]
  omega

/-- `SP - 1` modulo 256. -/
@[simp] theorem narrow_pred (v : Byte) : narrow ((v.toNat : Int) - 1) = v - 1 := by
  apply BitVec.eq_of_toNat_eq
  have h := toInt_mod_narrow ((v.toNat : Int) - 1)
  have := v.isLt
  have h1 : (1 : Byte).toNat = 1 := rfl
  rw [BitVec.toNat_sub, h1]
  omega

/-- `SP + 1` modulo 256. -/
@[simp] theorem narrow_succ (v : Byte) : narrow ((v.toNat : Int) + 1) = v + 1 := by
  apply BitVec.eq_of_toNat_eq
  have h := toInt_mod_narrow ((v.toNat : Int) + 1)
  have := v.isLt
  have h1 : (1 : Byte).toNat = 1 := rfl
  rw [BitVec.toNat_add, h1]
  omega

theorem toNat_narrow_add (a b : Byte) : (narrow ((a.toNat : Int) + b.toNat)).toNat = (a.toNat + b.toNat) % 256 := by
  rw [← Int.natCast_add, toNat_narrow_natCast]

theorem toNat_narrow_mul (a b : Byte) : (narrow ((a.toNat : Int) * b.toNat)).toNat = (a.toNat * b.toNat) % 256 := by
  rw [← Int.natCast_mul, toNat_narrow_natCast]

end Sys2Proof
end

