-- ==== Sys2Proof/Laws/Ops.lean ====
section
/-! SUPPORT. One lemma per shared operation, saying once everything it can do. -/

namespace Sys2Proof.Machine

open Sys2Proof

variable {s t : State} {r a b : Nat} {v : Byte} {f : Fault} {α : Type}

/-! ### Sequencing -/

@[simp] theorem orFault_ok {k : α → Result} {x : α} : orFault s (.ok x) k = k x := rfl

@[simp] theorem orFault_error {k : α → Result} : orFault s (.error f) k = .next (raiseFault f s) := rfl

/-- What a statement and the rest of its rule answer: the rest, or a fault taken. -/
theorem orFault_cases {x : Except Fault α} {k : α → Result} (h : orFault s x k = .next t) :
    (∃ v, x = .ok v ∧ k v = .next t) ∨ (∃ f, x = .error f ∧ t = raiseFault f s) := by
  cases x with
  | ok v => exact .inl ⟨v, rfl, h⟩
  | error f => exact .inr ⟨f, rfl, by cases h; rfl⟩

/-! ### Registers -/

/-- A register read gives the value of a readable register. -/
theorem readReg_ok_iff : readReg r s = .ok v ↔ s.Readable r ∧ v = s.reg r := by
  unfold readReg State.Readable Config.regCount
  by_cases h8 : 8 ≤ r
  · simp [h8, Nat.not_lt.mpr h8]
  · by_cases hw : s.isWritten r = true
    · rw [if_neg h8, if_pos hw]
      simp only [Nat.not_le.mp h8, hw, true_and, Except.ok.injEq, and_self]
      exact eq_comm
    · rw [if_neg h8, if_neg hw]
      exact ⟨fun h => (nomatch h), fun h => absurd h.1.2 hw⟩

/-- A register read faults on an invalid index, then on an unwritten cell. -/
theorem readReg_error_iff : readReg r s = .error f ↔
    (8 ≤ r ∧ f = .outOfBoundsReg r) ∨ (r < 7 ∧ s.isWritten r = false ∧ f = .unwrittenRegister r) := by
  unfold readReg Config.regCount
  by_cases h8 : 8 ≤ r
  · rw [if_pos h8]
    constructor
    · intro h; cases h; exact .inl ⟨h8, rfl⟩
    · rintro (⟨_, rfl⟩ | ⟨h7, _⟩)
      · rfl
      · omega
  · rw [if_neg h8]
    by_cases hw : s.isWritten r = true
    · rw [if_pos hw]
      constructor
      · intro h; cases h
      · rintro (⟨h, _⟩ | ⟨_, h, _⟩)
        · exact absurd h h8
        · exact absurd hw (by simp [h])
    · rw [if_neg hw]
      constructor
      · intro h; cases h
        refine .inr ⟨?_, by simpa using hw, rfl⟩
        by_contra h7
        exact hw (isWritten_of_ge (by omega))
      · rintro (⟨h, _⟩ | ⟨_, _, rfl⟩)
        · exact absurd h h8
        · rfl

theorem readReg_of_readable (h : s.Readable r) : readReg r s = .ok (s.reg r) := readReg_ok_iff.mpr ⟨h, rfl⟩

/-- A register write faults on an invalid index and otherwise sets the cell, modulo 256. -/
theorem writeReg_ok_iff {w : Int} : writeReg r w s = .ok t ↔ r < 8 ∧ t = s.setReg r (narrow w) := by
  unfold writeReg Config.regCount
  split
  · next h => exact ⟨fun e => (nomatch e), fun e => absurd e.1 (by omega)⟩
  · next h => exact ⟨fun e => by cases e; exact ⟨by omega, rfl⟩, fun e => by rw [e.2]⟩

theorem writeReg_error_iff {w : Int} : writeReg r w s = .error f ↔ 8 ≤ r ∧ f = .outOfBoundsReg r := by
  unfold writeReg Config.regCount
  split
  · next h => exact ⟨fun e => by cases e; exact ⟨h, rfl⟩, fun e => by rw [e.2]⟩
  · next h => exact ⟨fun e => (nomatch e), fun e => absurd e.1 h⟩

theorem writeReg_of_lt {w : Int} (h : r < 8) : writeReg r w s = .ok (s.setReg r (narrow w)) :=
  writeReg_ok_iff.mpr ⟨h, rfl⟩

/-- The decrement of SP is a write of R7. -/
theorem decSp_eq : decSp s = s.setReg 7 (s.sp - 1) := by simp [decSp, Config.spIndex]

/-- The increment of SP is a write of R7. -/
theorem incSp_eq : incSp s = s.setReg 7 (s.sp + 1) := by simp [incSp, Config.spIndex]

@[simp] theorem decSp_sp : (decSp s).sp = s.sp - 1 := by rw [decSp_eq, sp_eq_reg, setReg_reg_same (by omega)]

@[simp] theorem incSp_sp : (incSp s).sp = s.sp + 1 := by rw [incSp_eq, sp_eq_reg, setReg_reg_same (by omega)]

theorem decSp_reg : (decSp s).reg r = if r = 7 then s.sp - 1 else s.reg r := by
  rw [decSp_eq, setReg_reg]; simp

theorem incSp_reg : (incSp s).reg r = if r = 7 then s.sp + 1 else s.reg r := by
  rw [incSp_eq, setReg_reg]; simp

@[simp] theorem decSp_isWritten : (decSp s).isWritten r = s.isWritten r := by
  rw [decSp_eq, setReg_isWritten]
  by_cases h : r = 7 <;> simp [h]

@[simp] theorem incSp_isWritten : (incSp s).isWritten r = s.isWritten r := by
  rw [incSp_eq, setReg_isWritten]
  by_cases h : r = 7 <;> simp [h]

theorem pushAddr_eq : pushAddr s = (s.sp - 1).toNat := by simp [pushAddr]

/-- In a cycle the byte CALL pushes is the program counter. -/
theorem pcByte_toNat (h : s.pc < 256) : (pcByte s).toNat = s.pc := by
  rw [pcByte, if_pos h, BitVec.toNat_ofNat]
  omega

theorem pushAddr_lt : pushAddr s < 256 := (decSp s).sp.isLt

theorem popAddr_lt : popAddr s < 256 := s.sp.isLt

/-! ### Memory -/

theorem memRead_ok_iff : memRead a s = .ok v ↔ a < 256 ∧ v = s.byteAt a := by
  unfold memRead Config.memSize
  split
  · next h => exact ⟨fun e => (nomatch e), fun e => absurd e.1 (by omega)⟩
  · next h => exact ⟨fun e => by cases e; exact ⟨by omega, rfl⟩, fun e => by rw [e.2]⟩

theorem memRead_error_iff : memRead a s = .error f ↔ 256 ≤ a ∧ f = .outOfBoundsMem a := by
  unfold memRead Config.memSize
  split
  · next h => exact ⟨fun e => by cases e; exact ⟨h, rfl⟩, fun e => by rw [e.2]⟩
  · next h => exact ⟨fun e => (nomatch e), fun e => absurd e.1 h⟩

theorem memRead_of_lt (h : a < 256) : memRead a s = .ok (s.byteAt a) := memRead_ok_iff.mpr ⟨h, rfl⟩

theorem memRead_of_ge (h : 256 ≤ a) : memRead a s = .error (.outOfBoundsMem a) := memRead_error_iff.mpr ⟨h, rfl⟩

theorem memWrite_ok_iff : memWrite a v s = .ok t ↔ a < 256 ∧ t = { s with mem := s.mem.write a v } := by
  unfold memWrite Config.memSize
  split
  · next h => exact ⟨fun e => (nomatch e), fun e => absurd e.1 (by omega)⟩
  · next h => exact ⟨fun e => by cases e; exact ⟨by omega, rfl⟩, fun e => by rw [e.2]⟩

theorem memWrite_error_iff : memWrite a v s = .error f ↔ 256 ≤ a ∧ f = .outOfBoundsMem a := by
  unfold memWrite Config.memSize
  split
  · next h => exact ⟨fun e => by cases e; exact ⟨h, rfl⟩, fun e => by rw [e.2]⟩
  · next h => exact ⟨fun e => (nomatch e), fun e => absurd e.1 h⟩

theorem memWrite_of_lt (h : a < 256) : memWrite a v s = .ok { s with mem := s.mem.write a v } :=
  memWrite_ok_iff.mpr ⟨h, rfl⟩

/-! ### Operand forms -/

/-- A store at SP cannot fault (spec/20_memory.md R45). -/
@[simp] theorem storeAtSp_eq {k : State → Result} : storeAtSp v s k = k { s with mem := s.mem.write s.sp.toNat v } := by
  unfold storeAtSp
  rw [memWrite_of_lt s.sp.isLt, orFault_ok]

/-- A load at SP cannot fault (R45). -/
@[simp] theorem loadAtSp_eq {k : Byte → Result} : loadAtSp s k = k (s.byteAt (popAddr s)) := by
  unfold loadAtSp
  rw [memRead_of_lt popAddr_lt, orFault_ok]

theorem withReg_of_readable {k : Byte → Result} (h : s.Readable r) : withReg r s k = k (s.reg r) := by
  unfold withReg
  rw [readReg_of_readable h, orFault_ok]

theorem withReg_of_ge {k : Byte → Result} (h : 8 ≤ r) : withReg r s k = .next (raiseFault (.outOfBoundsReg r) s) := by
  unfold withReg
  rw [readReg_error_iff.mpr (.inl ⟨h, rfl⟩), orFault_error]

theorem withReg_of_unwritten {k : Byte → Result} (h : r < 7) (hw : s.isWritten r = false) :
    withReg r s k = .next (raiseFault (.unwrittenRegister r) s) := by
  unfold withReg
  rw [readReg_error_iff.mpr (.inr ⟨h, hw, rfl⟩), orFault_error]

/-- The faults of a register read (R19). -/
inductive RegReadFault (s : State) (r : Nat) : Fault → Prop where
  | index : 8 ≤ r → RegReadFault s r (.outOfBoundsReg r)
  | unwritten : r < 7 → s.isWritten r = false → RegReadFault s r (.unwrittenRegister r)

/-- Everything a register operand can do: give the value, or take the fault of the read. -/
theorem withReg_cases {k : Byte → Result} (r : Nat) (s : State) :
    (s.Readable r ∧ withReg r s k = k (s.reg r)) ∨
    (∃ f, RegReadFault s r f ∧ withReg r s k = .next (raiseFault f s)) := by
  by_cases h8 : 8 ≤ r
  · exact .inr ⟨_, .index h8, withReg_of_ge h8⟩
  · by_cases hw : s.isWritten r = true
    · exact .inl ⟨⟨by omega, hw⟩, withReg_of_readable ⟨by omega, hw⟩⟩
    · have h7 : r < 7 := by
        by_contra h
        exact hw (isWritten_of_ge (by omega))
      exact .inr ⟨_, .unwritten h7 (by simpa using hw), withReg_of_unwritten h7 (by simpa using hw)⟩

theorem withRegs_of_readable {k : Byte → Byte → Result} (ha : s.Readable a) (hb : s.Readable b) :
    withRegs a b s k = k (s.reg a) (s.reg b) := by
  unfold withRegs
  rw [withReg_of_readable ha, withReg_of_readable hb]

/-! ### Fetch -/

/-- A fetch of three bytes that exist. -/
theorem fetch_of_lt (h : s.pc + 2 < 256) :
    fetch s = .ok { opcode := s.byteAt s.pc, b1 := s.byteAt (s.pc + 1), b2 := s.byteAt (s.pc + 2) } := by
  unfold fetch
  rw [memRead_of_lt (by omega), memRead_of_lt (by omega), memRead_of_lt h]

/-- A fetch of which some byte does not exist raises the fault of the first one (spec/10_state.md R28). -/
theorem fetch_of_ge (h : 256 ≤ s.pc + 2) :
    fetch s = .error (.outOfBoundsMem (max s.pc 256)) := by
  unfold fetch
  by_cases h0 : 256 ≤ s.pc
  · rw [memRead_of_ge h0, Nat.max_eq_left h0]
  · rw [memRead_of_lt (by omega), Nat.max_eq_right (by omega)]
    by_cases h1 : 256 ≤ s.pc + 1
    · rw [memRead_of_ge h1, show s.pc + 1 = 256 by omega]
    · rw [memRead_of_lt (by omega), memRead_of_ge h, show s.pc + 2 = 256 by omega]

end Sys2Proof.Machine
end

