-- ==== Sys2Proof/Laws/Exec.lean ====
section
/-! SUPPORT. What each meaning can do, said once: where its operands can be used it answers one next state, and where
they cannot it takes the fault of an operand. -/

namespace Sys2Proof.Machine

open Sys2Proof

variable {s t : State} {i : Instr} {r a b : Nat} {f : Fault}

/-- The operands can be used: read where the instruction reads them, in range where it only writes them. -/
def Ready (s : State) : Instr → Prop
  | .hlt => True
  | .ldi r _ => r < 8
  | .prn r => s.Readable r
  | .add a b => s.Readable a ∧ s.Readable b
  | .mul a b => s.Readable a ∧ s.Readable b
  | .cmp a b => s.Readable a ∧ s.Readable b
  | .push r => s.Readable r
  | .pop r => r < 8
  | .call r => s.Readable r
  | .ret => True
  | .jmp r => s.Readable r

/-- The state after PUSH or CALL stored `v`. -/
def stored (v : Byte) (s : State) : State := { decSp s with mem := s.mem.write (pushAddr s) v }

/-- The state an instruction leaves when its operands can be used. -/
def effect (s : State) : Instr → State
  | .hlt => haltEngine s
  | .ldi r imm => s.setReg r imm
  | .prn r => emit (s.reg r) s
  | .add a b => s.setReg a (narrow (((s.reg a).toNat : Int) + (s.reg b).toNat))
  | .mul a b => s.setReg a (narrow (((s.reg a).toNat : Int) * (s.reg b).toNat))
  | .cmp a b => setFlags (cmpFlags (s.reg a) (s.reg b)) s
  | .push r => stored ((decSp s).reg r) s
  | .pop r => incSp (s.setReg r (s.byteAt (popAddr s)))
  | .call r => loadPc ((decSp s).reg r) (stored (pcByte s) s)
  | .ret => incSp (loadPc (s.byteAt (popAddr s)) s)
  | .jmp r => loadPc (s.reg r) s

/-- The register operands of an instruction, in the order it uses them. -/
def regOperands : Instr → List Nat
  | .hlt => []
  | .ldi r _ => [r]
  | .prn r => [r]
  | .add a b => [a, b]
  | .mul a b => [a, b]
  | .cmp a b => [a, b]
  | .push r => [r]
  | .pop r => [r]
  | .call r => [r]
  | .ret => []
  | .jmp r => [r]

/-! ### The stored byte of PUSH and CALL -/

variable {v : Byte}

@[simp] theorem stored_pc : (stored v s).pc = s.pc := rfl
@[simp] theorem stored_fl : (stored v s).fl = s.fl := rfl
@[simp] theorem stored_run : (stored v s).run = s.run := rfl
@[simp] theorem stored_out : (stored v s).out = s.out := rfl
@[simp] theorem stored_mem : (stored v s).mem = s.mem.write (pushAddr s) v := rfl
@[simp] theorem stored_reg : (stored v s).reg r = (decSp s).reg r := rfl
@[simp] theorem stored_sp : (stored v s).sp = s.sp - 1 := decSp_sp
@[simp] theorem stored_isWritten : (stored v s).isWritten r = s.isWritten r := decSp_isWritten

theorem stored_byteAt_same (h : s.mem.wf = true) : (stored v s).byteAt (pushAddr s) = v := read_write_same h

theorem stored_byteAt_other (h : a ≠ pushAddr s) : (stored v s).byteAt a = s.byteAt a := read_write_other h

/-! ### ADD, MUL and CMP -/

theorem aluInstr_of_readable {op : AluOp} (ha : s.Readable a) (hb : s.Readable b) :
    aluInstr op a b s = orFault s (aluApply op (s.reg a) (s.reg b)) fun o => commitAlu a o s :=
  withRegs_of_readable ha hb

theorem commitAlu_result (ha : a < 8) : commitAlu a { result := some v, flags := none } s = .next (s.setReg a v) := by
  simp [commitAlu, commitFlags, writeReg_of_lt ha]

/-! ### All instructions -/

theorem readable_decSp : (decSp s).Readable r ↔ s.Readable r := by simp [State.Readable]

theorem readable_stored : (stored v s).Readable r ↔ s.Readable r := by simp [State.Readable]

/-- Where its operands can be used, an instruction has its effect. -/
theorem exec_of_ready (h : Ready s i) : exec i s = .next (effect s i) := by
  cases i with
  | hlt => rfl
  | ldi r imm =>
    show execLdi r imm s = _
    unfold execLdi
    rw [writeReg_of_lt h]
    simp [effect, immediate]
  | prn r => exact withReg_of_readable h
  | add a b =>
    show aluInstr .add a b s = _
    rw [aluInstr_of_readable h.1 h.2]
    exact commitAlu_result h.1.1
  | mul a b =>
    show aluInstr .mul a b s = _
    rw [aluInstr_of_readable h.1 h.2]
    exact commitAlu_result h.1.1
  | cmp a b => exact aluInstr_of_readable h.1 h.2
  | push r =>
    show execPush r s = _
    unfold execPush
    rw [withReg_of_readable (readable_decSp.mpr h)]
    simp [effect, stored, pushAddr]
  | pop r =>
    show execPop r s = _
    unfold execPop
    rw [loadAtSp_eq, writeReg_of_lt h]
    simp [effect]
  | call r =>
    show execCall r s = _
    unfold execCall
    rw [storeAtSp_eq]
    exact withReg_of_readable (readable_stored (v := pcByte s) |>.mpr h)
  | ret => exact loadAtSp_eq
  | jmp r => exact withReg_of_readable h

/-- The fault of an operand of an instruction: an invalid index, or an unwritten cell where the instruction reads it. -/
inductive OperandFault (s : State) (i : Instr) : Fault → Prop where
  | index (r : Nat) : r ∈ regOperands i → 8 ≤ r → OperandFault s i (.outOfBoundsReg r)
  | unwritten (r : Nat) : r ∈ regOperands i → r < 7 → s.isWritten r = false →
      (∀ imm, i ≠ .ldi r imm) → i ≠ .pop r → OperandFault s i (.unwrittenRegister r)

/-- A state in which a handler can stop: nothing done, SP decremented, or SP decremented and the return address
stored. -/
inductive StoppedIn (s : State) : State → Prop where
  | same : StoppedIn s s
  | decremented : StoppedIn s (decSp s)
  | stored (v : Byte) : StoppedIn s (stored v s)

theorem not_readable_fault (h : ¬ s.Readable r) : ∃ f, RegReadFault s r f ∧
    ∀ k : Byte → Result, withReg r s k = .next (raiseFault f s) := by
  by_cases h8 : 8 ≤ r
  · exact ⟨_, .index h8, fun k => withReg_of_ge h8⟩
  · have hw : s.isWritten r = false := by
      by_contra hw
      exact h ⟨by omega, by simpa using hw⟩
    have h7 : r < 7 := by
      by_contra h7
      simp [isWritten_of_ge (s := s) (Nat.not_lt.mp h7)] at hw
    exact ⟨_, .unwritten h7 hw, fun k => withReg_of_unwritten h7 hw⟩

theorem operandFault_of_read (hr : r ∈ regOperands i) (hl : ∀ imm, i ≠ .ldi r imm) (hp : i ≠ .pop r)
    (h : RegReadFault s r f) : OperandFault s i f := by
  cases h with
  | index h8 => exact .index r hr h8
  | unwritten h7 hw => exact .unwritten r hr h7 hw hl hp

/-- An ALU instruction whose operands cannot both be read takes the fault of the first that cannot. -/
theorem aluInstr_not_readable {op : AluOp} (h : ¬ (s.Readable a ∧ s.Readable b)) :
    ∃ r f, (r = a ∨ s.Readable a ∧ r = b) ∧ RegReadFault s r f ∧ aluInstr op a b s = .next (raiseFault f s) := by
  by_cases ha : s.Readable a
  · obtain ⟨f, hf, e⟩ := not_readable_fault (s := s) (r := b) fun hb => h ⟨ha, hb⟩
    refine ⟨b, f, .inr ⟨ha, rfl⟩, hf, ?_⟩
    unfold aluInstr withRegs
    rw [withReg_of_readable ha, e]
  · obtain ⟨f, hf, e⟩ := not_readable_fault ha
    refine ⟨a, f, .inl rfl, hf, ?_⟩
    unfold aluInstr withRegs
    rw [e]

/-- Where its operands cannot be used, an instruction takes the fault of one of them. -/
theorem exec_of_not_ready (h : ¬ Ready s i) :
    ∃ f u, OperandFault s i f ∧ StoppedIn s u ∧ exec i s = .next (raiseFault f u) := by
  cases i with
  | hlt => exact absurd trivial h
  | ldi r imm =>
    have h8 : 8 ≤ r := Nat.not_lt.mp h
    refine ⟨_, s, .index r (by simp [regOperands]) h8, .same, ?_⟩
    show execLdi r imm s = _
    unfold execLdi
    rw [writeReg_error_iff.mpr ⟨h8, rfl⟩, orFault_error]
  | prn r =>
    obtain ⟨f, hf, e⟩ := not_readable_fault h
    exact ⟨f, s, operandFault_of_read (by simp [regOperands]) (by simp) (by simp) hf, .same, e _⟩
  | add a b =>
    obtain ⟨r, f, hr, hf, e⟩ := aluInstr_not_readable (op := .add) h
    refine ⟨f, s, operandFault_of_read (r := r) ?_ (by simp) (by simp) hf, .same, e⟩
    rcases hr with rfl | ⟨_, rfl⟩ <;> simp [regOperands]
  | mul a b =>
    obtain ⟨r, f, hr, hf, e⟩ := aluInstr_not_readable (op := .mul) h
    refine ⟨f, s, operandFault_of_read (r := r) ?_ (by simp) (by simp) hf, .same, e⟩
    rcases hr with rfl | ⟨_, rfl⟩ <;> simp [regOperands]
  | cmp a b =>
    obtain ⟨r, f, hr, hf, e⟩ := aluInstr_not_readable (op := .cmp) h
    refine ⟨f, s, operandFault_of_read (r := r) ?_ (by simp) (by simp) hf, .same, e⟩
    rcases hr with rfl | ⟨_, rfl⟩ <;> simp [regOperands]
  | push r =>
    obtain ⟨f, hf, e⟩ := not_readable_fault (s := decSp s) fun hr => h (readable_decSp.mp hr)
    refine ⟨f, decSp s, ?_, .decremented, e _⟩
    cases hf with
    | index h8 => exact .index r (by simp [regOperands]) h8
    | unwritten h7 hw => exact .unwritten r (by simp [regOperands]) h7 (by simpa using hw) (by simp) (by simp)
  | pop r =>
    have h8 : 8 ≤ r := Nat.not_lt.mp h
    refine ⟨_, s, .index r (by simp [regOperands]) h8, .same, ?_⟩
    show execPop r s = _
    unfold execPop
    rw [loadAtSp_eq, writeReg_error_iff.mpr ⟨h8, rfl⟩, orFault_error]
  | call r =>
    obtain ⟨f, hf, e⟩ := not_readable_fault (s := stored (pcByte s) s) fun hr => h (readable_stored.mp hr)
    refine ⟨f, stored (pcByte s) s, ?_, .stored _, ?_⟩
    · cases hf with
      | index h8 => exact .index r (by simp [regOperands]) h8
      | unwritten h7 hw => exact .unwritten r (by simp [regOperands]) h7 (by simpa using hw) (by simp) (by simp)
    · show execCall r s = _
      unfold execCall
      rw [storeAtSp_eq]
      exact e _
  | ret => exact absurd trivial h
  | jmp r =>
    obtain ⟨f, hf, e⟩ := not_readable_fault h
    exact ⟨f, s, operandFault_of_read (by simp [regOperands]) (by simp) (by simp) hf, .same, e _⟩

/-- Everything an instruction can do. -/
theorem exec_cases (h : exec i s = .next t) :
    (Ready s i ∧ t = effect s i) ∨
    (¬ Ready s i ∧ ∃ f u, OperandFault s i f ∧ StoppedIn s u ∧ t = raiseFault f u) := by
  by_cases hr : Ready s i
  · rw [exec_of_ready hr] at h
    exact .inl ⟨hr, by cases h; rfl⟩
  · obtain ⟨f, u, hf, hu, e⟩ := exec_of_not_ready hr
    rw [e] at h
    exact .inr ⟨hr, f, u, hf, hu, by cases h; rfl⟩

/-- An instruction always answers a next state: its effect, or the fault of an operand. -/
theorem exec_next (i : Instr) (s : State) : ∃ t, exec i s = .next t := by
  by_cases hr : Ready s i
  · exact ⟨_, exec_of_ready hr⟩
  · obtain ⟨f, u, -, -, e⟩ := exec_of_not_ready hr
    exact ⟨_, e⟩

end Sys2Proof.Machine
end

