-- ==== Sys2Proof/Laws/Loader.lean ====
section
/-! SUPPORT. The lines of an image, and what loading one line does. -/

namespace Sys2Proof.Machine

open Sys2Proof

variable {n a : Nat} {l : List Char} {ls : List (List Char)} {s : State} {v : Byte}

/-! ### One line loaded -/

theorem loadLines_blank (h : lineToken l = .blank) : loadLines n a (l :: ls) s = loadLines (n + 1) a ls s := by
  simp [loadLines, h]

theorem loadLines_malformed (h : lineToken l = .malformed) :
    loadLines n a (l :: ls) s = raiseFault (.loadError (some n)) s := by
  simp [loadLines, h]

theorem loadLines_byte (h : lineToken l = .byte v) (ha : a < 256) :
    loadLines n a (l :: ls) s = loadLines (n + 1) (a + 1) ls { s with mem := s.mem.write a v } := by
  simp [loadLines, h, ha]

theorem loadLines_full (h : lineToken l = .byte v) (ha : 256 ≤ a) :
    loadLines n a (l :: ls) s = raiseFault (.loadError (some n)) s := by
  simp [loadLines, h, Nat.not_lt.mpr ha]

/-! ### The parts of a line -/

/-- A line without `#` has no comment. -/
theorem stripComment_eq (h : '#' ∉ l) : stripComment l = l := by
  unfold stripComment
  apply List.takeWhile_eq_self_iff.mpr
  intro c hc
  simp only [decide_eq_true_eq]
  rintro rfl
  exact h hc

theorem dropWhile_isBlank_of_head (h : ∀ c, l.head? = some c → isBlank c = false) : l.dropWhile isBlank = l := by
  cases l with
  | nil => rfl
  | cons c l => simp [List.dropWhile, h c rfl]

/-- A token that neither starts nor ends with a blank is not trimmed. -/
theorem trim_of_ends (hd : ∀ c, l.head? = some c → isBlank c = false)
    (hl : ∀ c, l.getLast? = some c → isBlank c = false) : trim l = l := by
  unfold trim
  rw [dropWhile_isBlank_of_head hd, dropWhile_isBlank_of_head (l := l.reverse) (by simpa using hl),
    List.reverse_reverse]

/-- A token without blanks is not trimmed. -/
theorem trim_eq (h : ∀ c ∈ l, isBlank c = false) : trim l = l :=
  trim_of_ends (fun c hc => h c (List.mem_of_mem_head? hc)) (fun c hc => h c (List.mem_of_getLast? hc))

/-- The characters of a written token are binary digits. -/
theorem binaryToken_digits (v : Byte) : ∀ c ∈ binaryToken v, c = '0' ∨ c = '1' := by
  intro c hc
  simp only [binaryToken, List.mem_map] at hc
  obtain ⟨k, _, rfl⟩ := hc
  split <;> simp

theorem imageText_cons (v : Byte) (vs : List Byte) : imageText (v :: vs) = binaryToken v ++ '\n' :: imageText vs := by
  simp [imageText]

/-- A line ends at the first newline. -/
theorem splitLines_cons (l rest : List Char) (h : '\n' ∉ l) : splitLines (l ++ '\n' :: rest) = l :: splitLines rest := by
  induction l with
  | nil => simp [splitLines]
  | cons c l ih =>
    simp only [List.mem_cons, not_or] at h
    simp [splitLines, Ne.symm h.1, ih h.2]

end Sys2Proof.Machine
end

