-- ==== Sys2Proof/Laws/PerInstr.lean ====
section
/-! SUPPORT. The statements made per instruction, over the instruction as syntax. Family EncodedLength: the encoding of
an instruction is as long as its opcode byte says (spec/30_encoding.md R56, R61). -/

namespace Sys2Proof.Laws.EncodedLength

/-- The encoding is `1 + opcode[7:6]` bytes long. -/
def Statement (i : Instr) : Prop := (encode i).length = instrLength (opcodeMap i.handler)

/-- The opcode's bits 7:6 are the operand count of the format, for every handler. -/
theorem of_handler (i : Instr) : Statement i := by
  show (opcodeMap i.handler :: i.operandBytes).length = 1 + arity (opcodeMap i.handler)
  rw [opcodeMap_conditions.1 i.handler (mem_all _), List.length_cons, operandBytes_length, Nat.add_comm]

theorem hlt : Statement .hlt := of_handler _
theorem ldi (r : Nat) (imm : Byte) : Statement (.ldi r imm) := of_handler _
theorem prn (r : Nat) : Statement (.prn r) := of_handler _
theorem add (a b : Nat) : Statement (.add a b) := of_handler _
theorem mul (a b : Nat) : Statement (.mul a b) := of_handler _
theorem cmp (a b : Nat) : Statement (.cmp a b) := of_handler _
theorem push (r : Nat) : Statement (.push r) := of_handler _
theorem pop (r : Nat) : Statement (.pop r) := of_handler _
theorem call (r : Nat) : Statement (.call r) := of_handler _
theorem ret : Statement .ret := of_handler _
theorem jmp (r : Nat) : Statement (.jmp r) := of_handler _

end Sys2Proof.Laws.EncodedLength
end

