-- ==== Sys2Proof/Laws/Step.lean ====
section
/-! SUPPORT. What one step can do, said once. -/

namespace Sys2Proof.Machine

open Sys2Proof

variable {s t : State} {i : Instr}

/-- A handler the dispatch table gives makes an instruction of the prefetched bytes. -/
theorem decode_of_lookup {op b1 b2 : Byte} {h : Handler} (e : lookup op = some h) :
    ∃ i, decode [op, b1, b2] = .ok (i, [b1, b2].drop (arity op)) ∧ i.handler = h ∧
      i.operandBytes = [b1, b2].take (arity op) := by
  have ha : arity op = h.format.operandCount := by
    rw [← opcode_of_lookupIn e]
    exact opcodeMap_conditions.1 h (mem_all h)
  have hl : ([b1, b2].take (arity op)).length = h.format.operandCount := by
    rw [ha]; cases h <;> rfl
  obtain ⟨i, hi⟩ := instr_isSome hl
  refine ⟨i, ?_, (instr_eq_some hi).1, (instr_eq_some hi).2.1⟩
  simp only [lookup] at e
  simp only [decode, decodeWith, e, hi]

/-- A byte with no row in the table decodes to no instruction. -/
theorem decode_of_no_lookup {op : Byte} {bs : List Byte} (e : lookup op = none) :
    decode (op :: bs) = .error (.unknownOpcode op) := by
  simp only [lookup] at e
  simp only [decode, decodeWith, e]

/-- What decoding reads at the program counter. -/
abbrev State.decoded (s : State) (i : Instr) : Prop :=
  ∃ rest, decode [s.byteAt s.pc, s.byteAt (s.pc + 1), s.byteAt (s.pc + 2)] = .ok (i, rest)

/-- What was decoded is the instruction of the handler that the opcode byte selects. -/
theorem lookup_of_decoded (h : s.decoded i) : lookup (s.byteAt s.pc) = some i.handler := by
  obtain ⟨rest, h⟩ := h
  cases e : lookup (s.byteAt s.pc) with
  | none => rw [decode_of_no_lookup e] at h; cases h
  | some h' =>
    obtain ⟨i', e', hh, -⟩ := decode_of_lookup (b1 := s.byteAt (s.pc + 1)) (b2 := s.byteAt (s.pc + 2)) e
    rw [e'] at h
    cases h
    rw [hh]

theorem step_of_running (h : s.run = .running) : step s = cycle s := by
  simp only [step, engine, h]

/-- A cycle of an instruction that decodes is that instruction's meaning, after the advance. -/
theorem cycle_of_decoded (h : s.pc + 2 < 256) (hi : s.decoded i) :
    cycle s = exec i (advancePc (arity (s.byteAt s.pc)) s) := by
  obtain ⟨rest, hi⟩ := hi
  simp only [cycle, fetch_of_lt h, orFault_ok, dispatch, hi]

/-- A cycle of a byte with no row in the table. -/
theorem cycle_of_no_lookup (h : s.pc + 2 < 256) (e : lookup (s.byteAt s.pc) = none) :
    cycle s = .next (raiseFault (.unknownOpcode (s.byteAt s.pc) s.pc) (advancePc (arity (s.byteAt s.pc)) s)) := by
  simp only [cycle, fetch_of_lt h, orFault_ok, dispatch, decode_of_no_lookup e, takeFault]

/-- A cycle whose fetch leaves memory. -/
theorem cycle_of_fetch_fault (h : 256 ≤ s.pc + 2) :
    cycle s = .next (raiseFault (.outOfBoundsMem (max s.pc 256)) s) := by
  simp only [cycle, fetch_of_ge h, orFault_error]

/-- Everything a step that answers a next state can be: a cycle of a running machine, which ends in a fetch fault, in an
unknown opcode, or in the meaning of the instruction decoded. -/
theorem step_cases (h : step s = .next t) : s.run = .running ∧
    ((256 ≤ s.pc + 2 ∧ t = raiseFault (.outOfBoundsMem (max s.pc 256)) s) ∨
     (s.pc + 2 < 256 ∧ lookup (s.byteAt s.pc) = none ∧
      t = raiseFault (.unknownOpcode (s.byteAt s.pc) s.pc) (advancePc (arity (s.byteAt s.pc)) s)) ∨
     (s.pc + 2 < 256 ∧ ∃ i, s.decoded i ∧ exec i (advancePc (arity (s.byteAt s.pc)) s) = .next t)) := by
  have hr : s.run = .running := by
    cases e : s.run with
    | running => rfl
    | halted => simp only [step, engine, e] at h; cases h
    | faulted f => simp only [step, engine, e] at h; cases h
  refine ⟨hr, ?_⟩
  rw [step_of_running hr] at h
  by_cases hf : 256 ≤ s.pc + 2
  · rw [cycle_of_fetch_fault hf] at h
    exact .inl ⟨hf, by cases h; rfl⟩
  · have hf : s.pc + 2 < 256 := by omega
    cases e : lookup (s.byteAt s.pc) with
    | none =>
      rw [cycle_of_no_lookup hf e] at h
      exact .inr (.inl ⟨hf, rfl, by cases h; rfl⟩)
    | some hd =>
      obtain ⟨i, hi, -⟩ := decode_of_lookup (b1 := s.byteAt (s.pc + 1)) (b2 := s.byteAt (s.pc + 2)) e
      rw [cycle_of_decoded hf ⟨_, hi⟩] at h
      exact .inr (.inr ⟨hf, i, ⟨_, hi⟩, h⟩)

end Sys2Proof.Machine
end

