-- ==== Sys2Proof/Tests/Slice0.lean ====
section
/-! SUPPORT. Tests. Expected results are those of spec/95_test_vectors.md (the vector's name stands in each docstring)
or are read off the spec's encoding table (spec/30_encoding.md R60); then the witnesses that the hypotheses of the
statements can be met. -/

namespace Sys2Proof.Tests

open Sys2Proof Sys2Proof.Machine

/-! ### Helpers -/

/-- A running machine with `bytes` at `pc`, the register cells given written (on top of R0 to R6 unwritten), and memory
cells given. -/
def machine (pc : Nat) (bytes : List Byte) (regs cells : List (Nat × Byte)) : State :=
  let s := regs.foldl (fun s r => s.setReg r.1 r.2) { State.construct .unwritten with pc := pc }
  let t := cells.foldl (fun s c => { s with mem := s.mem.write c.1 c.2 }) s
  placeBytes bytes pc t

/-- What holds of the state after one step. -/
def after (s : State) (p : State → Bool) : Bool :=
  match step s with
  | .next t => p t
  | .fault _ => false
  | .refused _ => false

/-- Whether one step ends in this fault. -/
def faults (s : State) (f : Fault) : Bool := after s fun t => decide (t.run = .faulted f)

/-- Whether one step ends with the machine still running. -/
def runs (s : State) : Bool := after s fun t => decide (t.run = .running)

/-! ### Well-formedness: each check refuses an operand that is no byte -/

theorem test_wf_ldi : (Instr.ldi 256 0).wellFormed = false := by decide
theorem test_wf_prn : (Instr.prn 256).wellFormed = false := by decide
theorem test_wf_add_first : (Instr.add 256 0).wellFormed = false := by decide
theorem test_wf_add_second : (Instr.add 0 256).wellFormed = false := by decide
theorem test_wf_mul_first : (Instr.mul 256 0).wellFormed = false := by decide
theorem test_wf_mul_second : (Instr.mul 0 256).wellFormed = false := by decide
theorem test_wf_cmp_first : (Instr.cmp 256 0).wellFormed = false := by decide
theorem test_wf_cmp_second : (Instr.cmp 0 256).wellFormed = false := by decide
theorem test_wf_push : (Instr.push 256).wellFormed = false := by decide
theorem test_wf_pop : (Instr.pop 256).wellFormed = false := by decide
theorem test_wf_call : (Instr.call 256).wellFormed = false := by decide
theorem test_wf_jmp : (Instr.jmp 256).wellFormed = false := by decide
theorem test_wf_accepts_invalid_index : (Instr.prn 255).wellFormed = true := by decide

/-! ### Decoding and encoding: words written out from R60 -/

theorem test_decode_hlt : decode [0b00000001] = .ok (.hlt, []) := rfl
theorem test_decode_ldi : decode [0b10000010, 0b00000011, 0b11111111] = .ok (.ldi 3 255, []) := rfl
theorem test_decode_prn : decode [0b01000111, 0b00000111] = .ok (.prn 7, []) := rfl
theorem test_decode_add : decode [0b10100000, 0b00000001, 0b00000010] = .ok (.add 1 2, []) := rfl
theorem test_decode_mul : decode [0b10100010, 0b00000001, 0b00000010] = .ok (.mul 1 2, []) := rfl
theorem test_decode_cmp : decode [0b10100111, 0b00000001, 0b00000010] = .ok (.cmp 1 2, []) := rfl
theorem test_decode_push : decode [0b01000101, 0b00000101] = .ok (.push 5, []) := rfl
theorem test_decode_pop : decode [0b01000110, 0b00000110] = .ok (.pop 6, []) := rfl
theorem test_decode_call : decode [0b01010000, 0b00000001] = .ok (.call 1, []) := rfl
theorem test_decode_ret : decode [0b00010001] = .ok (.ret, []) := rfl
theorem test_decode_jmp : decode [0b01010100, 0b00000010] = .ok (.jmp 2, []) := rfl
/-- D19: the whole operand byte is the index. -/
theorem test_decode_does_not_mask : decode [0b01000111, 0b00001000] = .ok (.prn 8, []) := rfl
theorem test_decode_returns_rest : decode [0b01000111, 0b00000000, 0b00000001] = .ok (.prn 0, [0b00000001]) := rfl
theorem test_decode_rejects_zero : decode [0b00000000] = .error (.unknownOpcode 0) := rfl
/-- E6: LDI with bit 0 flipped. -/
theorem test_decode_rejects_83 : decode [0x83, 0, 0] = .error (.unknownOpcode 0x83) := rfl
theorem test_decode_rejects_truncated : decode [0b10000010, 0b00000000] = .error (.truncated 0x82) := rfl
theorem test_decode_rejects_empty : decode [] = .error .noBytes := rfl
/-- E4. -/
theorem test_arity : arity 0x3F = 0 ∧ arity 0x40 = 1 ∧ arity 0xBF = 2 ∧ arity 0xC0 = 3 ∧ arity 0xFF = 3 := by decide
theorem test_encode_ldi : encode (.ldi 0 8) = [0x82, 0x00, 0x08] := by decide
theorem test_encode_cmp : encode (.cmp 0 1) = [0xA7, 0x00, 0x01] := by decide
theorem test_table_word_ldi : decodeTableWord 24 0x080082 = some (.ldi 0 8) := by decide
theorem test_table_word_short : decodeTableWord 8 0x47 = some (.prn 0) := by decide
theorem test_table_word_drops_high_bits : decodeTableWord 8 0x0847 = some (.prn 0) := by decide

/-! ### Reset -/

theorem test_reset_registers : State.reset.reg 7 = 0xF4 ∧ State.reset.reg 0 = 0 ∧ State.reset.isWritten 0 = true := by
  decide
theorem test_reset_first_step : after (State.reset.withFetchWord 24 0x080082) (fun t => t.reg 0 == 8 && t.pc == 3) = true := by
  decide

/-! ### The cycle -/

/-- E5. -/
theorem test_unknown_opcode : faults (machine 3 [0x00] [] []) (.unknownOpcode 0x00 3) = true := by decide
/-- E7. -/
theorem test_arity_three : faults (machine 0 [0xC0] [] []) (.unknownOpcode 0xC0 0) = true := by decide
/-- E9. -/
theorem test_fetch_outside : faults (machine 256 [] [] []) (.outOfBoundsMem 256) = true := by decide
/-- E11. -/
theorem test_prefetch_at_254 : faults (machine 254 [0x01] [] []) (.outOfBoundsMem 256) = true := by decide
/-- E12. -/
theorem test_prefetch_at_255 : faults (machine 255 [0x01] [] []) (.outOfBoundsMem 256) = true := by decide
/-- E13. -/
theorem test_prefetch_before_dispatch : faults (machine 254 [0xFF] [] []) (.outOfBoundsMem 256) = true := by decide
/-- E14. -/
theorem test_pc_past_memory : after (machine 253 [0x82, 0x00, 0x05] [] []) (fun t => t.pc == 256 && t.reg 0 == 5) = true := by
  decide
/-- E15. -/
theorem test_halted_has_no_step : step { State.reset with run := .halted } = .refused .halted := rfl

/-! ### Instructions -/

/-- H1. -/
theorem test_hlt : after (machine 5 [0x01] [] []) (fun t => decide (t.run = .halted) && t.pc == 6) = true := by decide
/-- E10. -/
theorem test_hlt_at_253 : after (machine 253 [0x01] [] []) (fun t => decide (t.run = .halted) && t.pc == 254) = true := by
  decide
/-- L3. -/
theorem test_ldi_sp : after (machine 0 [0x82, 0x07, 0x10] [] []) (fun t => t.sp == 0x10 && t.pc == 3) = true := by decide
/-- L4. -/
theorem test_ldi_bad_index : faults (machine 0 [0x82, 0x08, 0x01] [] []) (.outOfBoundsReg 8) = true := by decide
/-- N3. -/
theorem test_prn_sp : after (machine 0 [0x47, 0x07] [] []) (fun t => decide (t.out = [244])) = true := by decide
/-- N4. -/
theorem test_prn_unwritten : faults (machine 0 [0x47, 0x01] [] []) (.unwrittenRegister 1) = true := by decide
/-- A1. -/
theorem test_add_wraps : after (machine 0 [0xA0, 0x00, 0x01] [(0, 200), (1, 100)] [])
    (fun t => t.reg 0 == 44 && t.reg 1 == 100 && t.fl == 0) = true := by decide
/-- A8. -/
theorem test_add_first_operand_checked_first : faults (machine 0 [0xA0, 0x09, 0x00] [(0, 1)] []) (.outOfBoundsReg 9) = true := by
  decide
/-- M3. -/
theorem test_mul_wraps : after (machine 0 [0xA2, 0x00, 0x01] [(0, 255), (1, 255)] []) (fun t => t.reg 0 == 1) = true := by
  decide
/-- M7. -/
theorem test_mul_square : after (machine 0 [0xA2, 0x01, 0x01] [(1, 16)] []) (fun t => t.reg 1 == 0) = true := by decide
/-- C4. -/
theorem test_cmp_unsigned : after (machine 0 [0xA7, 0x00, 0x01] [(0, 0x80), (1, 0x7F)] []) (fun t => t.fl == 0x02) = true := by
  decide
/-- C5. -/
theorem test_cmp_less : after (machine 0 [0xA7, 0x00, 0x01] [(0, 0x00), (1, 0xFF)] []) (fun t => t.fl == 0x04) = true := by
  decide
/-- K2. -/
theorem test_push_wraps : after (machine 0 [0x45, 0x00] [(0, 0x2A), (7, 0x00)] [])
    (fun t => t.sp == 0xFF && t.byteAt 0xFF == 0x2A) = true := by decide
/-- K3. -/
theorem test_push_sp : after (machine 0 [0x45, 0x07] [] []) (fun t => t.sp == 0xF3 && t.byteAt 0xF3 == 0xF3) = true := by
  decide
/-- K7. -/
theorem test_pop_wraps : after (machine 0 [0x46, 0x02] [(7, 0xFF)] [(0xFF, 0x07)]) (fun t => t.sp == 0x00 && t.reg 2 == 7) = true := by
  decide
/-- K8. -/
theorem test_pop_sp : after (machine 0 [0x46, 0x07] [(7, 0xF3)] [(0xF3, 0x10)]) (fun t => t.sp == 0x11) = true := by decide
/-- T2. -/
theorem test_call_sp : after (machine 0x20 [0x50, 0x07] [] [])
    (fun t => t.sp == 0xF3 && t.byteAt 0xF3 == 0x22 && t.pc == 0xF3) = true := by decide
/-- T3. -/
theorem test_call_at_253 : after (machine 0xFD [0x50, 0x01] [(1, 0)] [])
    (fun t => t.sp == 0xF3 && t.byteAt 0xF3 == 0xFF && t.pc == 0) = true := by decide
/-- T6. -/
theorem test_ret : after (machine 0 [0x11] [(7, 0xF3)] [(0xF3, 0x05)]) (fun t => t.pc == 5 && t.sp == 0xF4) = true := by decide
/-- T7. -/
theorem test_ret_wraps : after (machine 0 [0x11] [(7, 0xFF)] [(0xFF, 0x10)]) (fun t => t.pc == 0x10 && t.sp == 0x00) = true := by
  decide
/-- T10. -/
theorem test_jmp : after (machine 6 [0x54, 0x02] [(2, 0x0A)] []) (fun t => t.pc == 0x0A) = true := by decide
/-- T14. -/
theorem test_jmp_bad_index : faults (machine 0 [0x54, 0x08] [] []) (.outOfBoundsReg 8) = true := by decide

/-! ### The load and the report -/

/-- The image of vector I1: a comment and a blank line. -/
def imageI1 : List Char := "10000010 # LDI\n\n00000000\n 00001000\t\n".toList

/-- I1. -/
theorem test_load : (boot .unwritten (some imageI1)).mem = [(0, 0x82), (2, 0x08)] := by decide
/-- I2. -/
theorem test_load_malformed : (boot .zero (some "102".toList)).run = .faulted (.loadError (some 1)) := by decide
/-- I3. -/
theorem test_load_over_255 : (boot .zero (some "0000\n111111111".toList)).run = .faulted (.loadError (some 2)) := by decide
/-- I5. -/
theorem test_load_empty : boot .zero (some []) = State.reset ∧ faults State.reset (.unknownOpcode 0 0) = true := by decide
theorem test_load_missing : exitStatus (boot .zero none) = some 2 := rfl
theorem test_output_text : outputText { State.reset with out := [0, 72, 244] } = "0\n72\n244\n".toList := by decide
theorem test_fault_codes : (Fault.unknownOpcode 0 0).code = 1 ∧ (Fault.loadError none).code = 6 := by decide

/-! ### Witnesses: the hypotheses of the statements can be met -/

theorem not_failed_of_running {t : State} (h : t.run = .running) : ¬ t.Failed := fun ⟨f, e⟩ => by
  rw [h] at e
  cases e

/-- A step that ends with the machine running meets the hypotheses of the whole-machine rules. -/
theorem goes_of_runs {s : State} (h : runs s = true) : ∃ t, step s = .next t ∧ ¬ t.Failed := by
  simp only [runs, after] at h
  cases e : step s with
  | next t =>
    rw [e] at h
    exact ⟨t, rfl, not_failed_of_running (by simpa using h)⟩
  | fault f => rw [e] at h; cases h
  | refused r => rw [e] at h; cases h

/-- One running machine for each instruction, at the lowest and the highest address where it can stand. -/
def atLdi : State := machine 0 [0x82, 0x00, 0xFF] [] []
def atLdi7 : State := machine 253 [0x82, 0x07, 0x00] [] []
def atPrn : State := machine 253 [0x47, 0x07] [] []
def atAdd : State := machine 253 [0xA0, 0x07, 0x00] [(0, 0xFF)] []
def atMul : State := machine 0 [0xA2, 0x06, 0x06] [(6, 0x02)] []
def atCmp : State := machine 0 [0xA7, 0x00, 0x07] [(0, 0x00)] []
def atPush : State := machine 253 [0x45, 0x00] [(0, 0x2A), (7, 0x00)] []
def atPop : State := machine 253 [0x46, 0x06] [(7, 0xFF)] [(0xFF, 0x07)]
def atCall : State := machine 253 [0x50, 0x01] [(1, 0xFF)] []
def atRet : State := machine 253 [0x11] [(7, 0xFF)] [(0xFF, 0x10)]
def atJmp : State := machine 6 [0x54, 0x02] [(2, 0x06)] []
def atHlt : State := machine 253 [0x01] [] []

theorem witness_StepKeepsInv : atPush.Inv ∧ ∃ t, step atPush = .next t := ⟨by decide, _, rfl⟩
theorem witness_WrittenRegistersStayWritten :
    (State.reset.withFetchWord 16 0x0047).AllWritten ∧ ∃ t, step (State.reset.withFetchWord 16 0x0047) = .next t :=
  ⟨by decide, _, rfl⟩
theorem witness_ConstructionLeavesSpecValues : (6 : Nat) < 7 ∧ (0 : Nat) < 7 := by decide
theorem witness_StepRunsDecodedInstruction : atLdi.run = .running ∧ atLdi7.pc + 2 = 255 ∧
    decode [atLdi7.byteAt 253, atLdi7.byteAt 254, atLdi7.byteAt 255] = .ok (.ldi 7 0, []) := ⟨rfl, rfl, rfl⟩
theorem witness_StepRunsEncodedInstruction : atLdi7.run = .running ∧ atLdi7.pc + 2 < 256 ∧
    (Instr.ldi 7 0).wellFormed = true ∧
    ∀ k v, (encode (.ldi 7 0))[k]? = some v → atLdi7.byteAt (atLdi7.pc + k) = v := by
  refine ⟨rfl, by decide, by decide, fun k v h => ?_⟩
  match k with
  | 0 => cases h; rfl
  | 1 => cases h; rfl
  | 2 => cases h; rfl
  | n + 3 => cases h
theorem witness_FetchReadsThreeBytesOrFaults : (machine 253 [] [] []).pc + 2 < 256 ∧ 256 ≤ (machine 256 [] [] []).pc ∧
    ((machine 255 [] [] []).pc < 256 ∧ 256 ≤ (machine 255 [] [] []).pc + 1) ∧
    ((machine 254 [] [] []).pc + 1 < 256 ∧ 256 ≤ (machine 254 [] [] []).pc + 2) := by decide
theorem witness_FetchAndDispatchFaultsInOrder : (machine 257 [] [] []).run = .running ∧ 256 ≤ (machine 257 [] [] []).pc ∧
    (machine 254 [] [] []).pc = 254 ∧ (machine 255 [] [] []).pc = 255 ∧
    (machine 253 [0x00] [] []).pc ≤ 253 ∧ lookup ((machine 253 [0x00] [] []).byteAt 253) = none := by decide
theorem witness_RunningAlwaysSteps : State.reset.run = .running := rfl
theorem witness_HaltedAndFaultedHaveNoStep :
    ({ State.reset with run := .halted } : State).run = .halted ∧
    (raiseFault (.outOfBoundsReg 8) State.reset).run = .faulted (.outOfBoundsReg 8) := ⟨rfl, rfl⟩
theorem witness_CycleFaultsAreTheSpecs :
    faults (machine 257 [] [] []) (.outOfBoundsMem 257) = true ∧
    faults (machine 253 [0x00] [] []) (.unknownOpcode 0x00 253) = true ∧
    faults (machine 0 [0x47, 0xFF] [] []) (.outOfBoundsReg 255) = true ∧
    faults (machine 0 [0xA0, 0x07, 0x06] [] []) (.unwrittenRegister 6) = true := by decide
theorem witness_AdvanceAndPrefetch_call : atCall.mem.wf = true ∧ atCall.run = .running ∧ atCall.pc + 2 < 256 ∧
    lookup (atCall.byteAt atCall.pc) = some .call ∧ ∃ t, step atCall = .next t ∧ ¬ t.Failed :=
  ⟨by decide, rfl, by decide, by decide, goes_of_runs (by decide)⟩
theorem witness_AdvanceAndPrefetch_hlt : atHlt.mem.wf = true ∧ atHlt.run = .running ∧ atHlt.pc + 2 < 256 ∧
    lookup (atHlt.byteAt atHlt.pc) = some .hlt := by decide
/-- A PUSH at 0x10 whose own operand byte is the cell it stores to. -/
def pushOverOperand : State := machine 0x10 [0x45, 0x00] [(0, 0x33), (7, 0x12)] []
theorem witness_AdvanceAndPrefetch_push : pushOverOperand.mem.wf = true ∧ pushOverOperand.run = .running ∧
    pushOverOperand.pc + 2 < 256 ∧ lookup (pushOverOperand.byteAt pushOverOperand.pc) = some .push ∧
    pushAddr pushOverOperand = pushOverOperand.pc + 1 ∧
    0 = (pushOverOperand.byteAt (pushOverOperand.pc + 1)).toNat := by decide
/-- A CALL at 0x10 that stores to the cell after its operand byte. -/
def callOverOperand : State := machine 0x10 [0x50, 0x01] [(1, 0x33), (7, 0x13)] []
theorem witness_AdvanceAndPrefetch_callOverOperand : callOverOperand.mem.wf = true ∧ callOverOperand.run = .running ∧
    callOverOperand.pc + 2 < 256 ∧ lookup (callOverOperand.byteAt callOverOperand.pc) = some .call ∧
    pushAddr callOverOperand = callOverOperand.pc + 2 ∧
    1 = (callOverOperand.byteAt (callOverOperand.pc + 1)).toNat := by decide
theorem witness_AdvanceAndPrefetch_top : (machine 254 [] [] []).mem.wf = true ∧ (machine 254 [] [] []).run = .running ∧
    (machine 254 [] [] []).pc = 254 ∧ (machine 255 [] [] []).pc = 255 := by decide
theorem witness_OnlyControlTransfersSetPc :
    (∃ t, exec (.prn 7) atPrn = .next t ∧ ¬ t.Failed) ∧
    (lookup (atPrn.byteAt atPrn.pc) = some .prn ∧ ∃ t, step atPrn = .next t ∧ ¬ t.Failed) ∧
    (lookup (atCall.byteAt atCall.pc) = some .call ∧ ∃ t, step atCall = .next t ∧ ¬ t.Failed) ∧
    (lookup (atRet.byteAt atRet.pc) = some .ret ∧ ∃ t, step atRet = .next t ∧ ¬ t.Failed) ∧
    (lookup (atJmp.byteAt atJmp.pc) = some .jmp ∧ ∃ t, step atJmp = .next t ∧ ¬ t.Failed) :=
  ⟨⟨_, rfl, not_failed_of_running rfl⟩, ⟨by decide, goes_of_runs (by decide)⟩, ⟨by decide, goes_of_runs (by decide)⟩,
    ⟨by decide, goes_of_runs (by decide)⟩, ⟨by decide, goes_of_runs (by decide)⟩⟩
theorem witness_OnlyPushAndCallWriteMemory :
    (∃ t, step atPush = .next t ∧ ¬ t.Failed) ∧ lookup (atPop.byteAt atPop.pc) ≠ some .push ∧
    lookup (atPop.byteAt atPop.pc) ≠ some .call ∧ ∃ t, step atPop = .next t ∧ ¬ t.Failed :=
  ⟨goes_of_runs (by decide), by decide, by decide, goes_of_runs (by decide)⟩
theorem witness_OnlyCmpWritesFlags :
    (lookup (atAdd.byteAt atAdd.pc) ≠ some .cmp ∧ ∃ t, step atAdd = .next t ∧ ¬ t.Failed) ∧
    (lookup (atCmp.byteAt atCmp.pc) = some .cmp ∧ ∃ t, step atCmp = .next t ∧ ¬ t.Failed) :=
  ⟨⟨by decide, goes_of_runs (by decide)⟩, ⟨by decide, goes_of_runs (by decide)⟩⟩
theorem witness_FlagsAreReadByNothing : ∃ t, step atCmp = .next t := ⟨_, rfl⟩
theorem witness_OnlyNamedRegisterIsWritten :
    (∃ t, step atMul = .next t ∧ ¬ t.Failed) ∧ after atMul (fun t => decide (t.reg 6 ≠ atMul.reg 6)) = true ∧
    (∃ t, step atLdi = .next t ∧ ¬ t.Failed) ∧ after atLdi (fun t => decide (t.isWritten 0 ≠ atLdi.isWritten 0)) = true :=
  ⟨goes_of_runs (by decide), by decide, goes_of_runs (by decide), by decide⟩
theorem witness_SpChangesOnlyByStackOrOperandSeven :
    (∃ t, step atRet = .next t ∧ ¬ t.Failed) ∧ after atRet (fun t => decide (t.sp ≠ atRet.sp)) = true ∧
    (∃ t, step atAdd = .next t ∧ ¬ t.Failed) ∧ after atAdd (fun t => decide (t.sp ≠ atAdd.sp)) = true :=
  ⟨goes_of_runs (by decide), by decide, goes_of_runs (by decide), by decide⟩
theorem witness_OnlyPrnOutputs :
    (lookup (atPush.byteAt atPush.pc) ≠ some .prn ∧ ∃ t, step atPush = .next t ∧ ¬ t.Failed) ∧
    (lookup (atPrn.byteAt atPrn.pc) = some .prn ∧ ∃ t, step atPrn = .next t ∧ ¬ t.Failed) :=
  ⟨⟨by decide, goes_of_runs (by decide)⟩, ⟨by decide, goes_of_runs (by decide)⟩⟩
theorem witness_OutputGrowsAlongRuns : ∃ t, reachesIn 1 atPrn t ∧ ¬ t.Failed := by
  obtain ⟨t, h, hf⟩ := goes_of_runs (s := atPrn) (by decide)
  exact ⟨t, ⟨t, h, rfl⟩, hf⟩
theorem witness_RunEndsInExactlyOneWay : atHlt.run = .running ∧ reachesIn 0 atHlt atHlt ∧
    ∃ t, reachesIn 1 atHlt t ∧ t.run ≠ .running := ⟨rfl, rfl, _, ⟨_, rfl, rfl⟩, by decide⟩
theorem witness_JmpToItselfNeverEnds : atJmp.run = .running ∧ atJmp.pc + 2 < 256 ∧
    lookup (atJmp.byteAt atJmp.pc) = some .jmp ∧ atJmp.Readable (atJmp.byteAt (atJmp.pc + 1)).toNat ∧
    (atJmp.reg (atJmp.byteAt (atJmp.pc + 1)).toNat).toNat = atJmp.pc := by decide
theorem witness_WrittenByteIsFetched : State.reset.mem.wf = true ∧ (253 : Nat) + 2 < 256 ∧
    ∃ t, memWrite 253 0x01 State.reset = .ok t := ⟨rfl, by decide, _, rfl⟩
theorem witness_HltHaltsAndNothingElseDoes : (atHlt.run = .running ∧ atHlt.pc + 2 < 256 ∧ atHlt.byteAt atHlt.pc = 0b00000001) ∧
    (∃ t, step (machine 254 [0x01] [] []) = .next t) ∧ (∃ t, step (machine 255 [0x01] [] []) = .next t) ∧
    after atHlt (fun t => decide (t.run = .halted)) = true := ⟨by decide, ⟨_, rfl⟩, ⟨_, rfl⟩, by decide⟩
theorem witness_LdiLoadsImmediate : (7 : Nat) < 8 ∧ 8 ≤ (8 : Nat) ∧ ∃ t, exec (.ldi 7 255) State.reset = .next t :=
  ⟨by decide, by decide, _, rfl⟩
theorem witness_PrnEmitsRegister : atPrn.Readable 7 ∧ State.reset.Readable 0 := by decide
theorem witness_AluCmpIsUnsignedThreeWay : (0 : Byte).toNat < (255 : Byte).toNat ∧ (0x80 : Byte).toNat = (0x80 : Byte).toNat ∧
    flagLayout.equal ≠ flagLayout.greater ∧ flagLayout.greater ≠ flagLayout.less ∧ flagLayout.equal ≠ flagLayout.less := by
  decide
theorem witness_UnsupportedOperationIsAluOnly : (AluOp.add = .add ∨ AluOp.add = .mul ∨ AluOp.add = .cmp) ∧
    ∃ t, step atAdd = .next t := ⟨by decide, _, rfl⟩
theorem witness_AddAndMulWriteFirstOperand : atAdd.Readable 7 ∧ atAdd.Readable 0 ∧ atMul.Readable 6 := by decide
theorem witness_CmpReplacesFlags : atCmp.Readable 0 ∧ atCmp.Readable 7 ∧ (atCmp.reg 0).toNat < (atCmp.reg 7).toNat := by
  decide
theorem witness_PushStoresBelowSp : atPush.mem.wf = true ∧ atPush.Readable 0 ∧ atPush.Readable 7 := by decide
theorem witness_PopLoadsFromSp : (7 : Nat) < 8 ∧ (0 : Nat) < 8 ∧ (0 : Nat) ≠ 7 := by decide
theorem witness_PushThenPopRoundTrip : atPush.mem.wf = true ∧ atPush.Readable 0 ∧ atPush.Readable 7 ∧ (6 : Nat) < 8 ∧
    (∃ t, exec (.push 0) atPush = .next t) ∧ ∃ t, exec (.push 7) atPush = .next t :=
  ⟨by decide, by decide, by decide, by decide, ⟨_, rfl⟩, ⟨_, rfl⟩⟩
theorem witness_CallStoresReturnAddressAndJumps : atCall.mem.wf = true ∧ atCall.Readable 1 ∧ atCall.Readable 7 ∧
    atCall.pc < 256 := by decide
theorem witness_JmpLoadsPcFromRegister : atJmp.Readable 2 ∧ atJmp.Readable 7 := by decide
theorem witness_CallThenRetRoundTrip : atCall.mem.wf = true ∧ atCall.Readable 1 ∧ atCall.pc < 256 ∧
    ∃ t u : State, exec (.call 1) atCall = .next t ∧ u.sp = t.sp ∧ u.byteAt (popAddr t) = t.byteAt (popAddr t) :=
  ⟨by decide, by decide, by decide, _, _, rfl, rfl, rfl⟩
theorem witness_RegisterIndexIsValidBelowEight : 8 ≤ (8 : Nat) ∧ 8 ≤ (255 : Nat) ∧ (7 : Nat) < 8 := by decide
theorem witness_InvalidRegisterOperandFaults : 8 ≤ (8 : Nat) ∧ 8 ≤ (255 : Nat) ∧ atAdd.Readable 7 ∧ atRet.run = .running := by
  decide
theorem witness_UnwrittenRegisterReadFaults : (6 : Nat) < 7 ∧ atAdd.isWritten 6 = false ∧ atAdd.Readable 0 ∧
    (0 : Nat) < 7 ∧ atPrn.isWritten 0 = false := by decide
theorem witness_MemReadIsBounded : (255 : Nat) < 256 ∧ 256 ≤ (256 : Nat) := by decide
theorem witness_MemWriteStoresOneByte : atPush.mem.wf = true ∧ (255 : Nat) < 256 ∧ 256 ≤ (256 : Nat) := by decide
theorem witness_RegisterWriteReducesModulo256 : (7 : Nat) < 8 ∧ (0 : Nat) < 8 := by decide
theorem witness_ArityIsBits7And6 : arity 0xC0 = 3 ∧ arity 0xFF = 3 := by decide
theorem witness_OtherBytesAreIllegal : 0xC0 ≤ (0xC0 : Byte).toNat ∧ lookup 0x00 = none := by decide
theorem witness_DecodeOfEncode : OpcodeMap.Wf opcodeMap ∧ (Instr.add 255 0).wellFormed = true :=
  ⟨opcodeMap_conditions, by decide⟩
theorem witness_EncodeOfDecode : decodeWith opcodeMap [0xA0, 0xFF, 0x00, 0x01] = .ok (.add 255 0, [0x01]) := rfl
theorem witness_LoadFillsMemoryFromZero : (List.replicate 256 (0xFF : Byte)).length ≤ 256 :=
  Nat.le_of_eq List.length_replicate
theorem witness_CommentsAndBlanksAreIgnored : '#' ∉ ['1', '0'] ∧ (∀ c ∈ [' ', '\t'], isBlank c = true) ∧
    lineToken [' '] = .blank := ⟨by simp, by simp [isBlank], by decide⟩
/-- A token with another character, and one with a blank inside it. -/
theorem witness_BadImageIsLoadError : ('#' ∉ ['1', '0', '2'] ∧
    (∀ c, ['1', '0', '2'].head? = some c → isBlank c = false) ∧
    (∀ c, ['1', '0', '2'].getLast? = some c → isBlank c = false) ∧ ∃ c ∈ ['1', '0', '2'], c ≠ '0' ∧ c ≠ '1') ∧
    ('#' ∉ ['1', ' ', '0'] ∧ (∀ c, ['1', ' ', '0'].head? = some c → isBlank c = false) ∧
    (∀ c, ['1', ' ', '0'].getLast? = some c → isBlank c = false) ∧ ∃ c ∈ ['1', ' ', '0'], c ≠ '0' ∧ c ≠ '1') ∧
    (['1', '0', '2'] ∈ splitLines ['1', '0', '2'] ∧ lineToken ['1', '0', '2'] = .malformed) ∧
    (boot .zero none).run = .faulted (.loadError none) :=
  ⟨⟨by simp, by simp [isBlank], by simp [isBlank], '2', by simp, by simp, by simp⟩,
    ⟨by simp, by simp [isBlank], by simp [isBlank], ' ', by simp, by simp, by simp⟩,
    ⟨by simp [splitLines], by decide⟩, rfl⟩
theorem witness_TooLongImageIsLoadError : 256 < (List.replicate 257 (0xFF : Byte)).length ∧
    (['1', '1', '1', '1', '1', '1', '1', '1'] ≠ [] ∧
      (∀ c ∈ ['1', '1', '1', '1', '1', '1', '1', '1'], c = '0' ∨ c = '1') ∧ binaryValue 0 ['1', '1', '1', '1', '1', '1', '1', '1'] = some 255) ∧
    binaryValue 0 ['1', '0', '0', '0', '0', '0', '0', '0', '0'] = some 256 :=
  ⟨by rw [List.length_replicate]; omega, ⟨by simp, by simp, by decide⟩, by decide⟩
theorem witness_ExitStatusSeparatesHaltFromFault : State.reset.run = .running ∧ (haltEngine State.reset).run = .halted ∧
    (boot .zero none).run = .faulted (.loadError none) ∧
    (raiseFault (.outOfBoundsReg 8) State.reset).run = .faulted (.outOfBoundsReg 8) := by decide

end Sys2Proof.Tests
end

section
/-! PROOFS. A step that does not fail is the effect of the instruction decoded, whose first register operand is the byte
after the opcode. -/

namespace Sys2Proof.Machine

open Sys2Proof

variable {s t : State} {i : Instr} {r : Nat}

theorem failed_raiseFault (f : Fault) (s : State) : (raiseFault f s).Failed := ⟨f, rfl⟩

/-- An instruction that does not fail has its effect, and its operands could be used. -/
theorem effect_of_not_failed (h : exec i s = .next t) (ht : ¬ t.Failed) : Ready s i ∧ t = effect s i := by
  obtain hr | ⟨-, f, u, -, -, rfl⟩ := exec_cases h
  · exact hr
  · exact absurd (failed_raiseFault f u) ht

/-- A step that does not fail is the effect of the instruction decoded, after the advance. -/
theorem step_effect_of_not_failed (h : step s = .next t) (ht : ¬ t.Failed) :
    s.pc + 2 < 256 ∧ ∃ i, s.decoded i ∧ Ready (advancePc (arity (s.byteAt s.pc)) s) i ∧
      t = effect (advancePc (arity (s.byteAt s.pc)) s) i := by
  obtain ⟨-, ⟨-, rfl⟩ | ⟨-, -, rfl⟩ | ⟨hpc, i, hi, he⟩⟩ := step_cases h
  · exact absurd (failed_raiseFault _ _) ht
  · exact absurd (failed_raiseFault _ _) ht
  · exact ⟨hpc, i, hi, effect_of_not_failed he ht⟩

/-- What was decoded is well formed, and its operand bytes are those after the opcode, as many as the arity. -/
theorem operandBytes_of_decoded (h : s.decoded i) : i.wellFormed = true ∧
    i.operandBytes = [s.byteAt (s.pc + 1), s.byteAt (s.pc + 2)].take (arity (s.byteAt s.pc)) := by
  have hl : lookupIn opcodeMap (s.byteAt s.pc) = some i.handler := lookup_of_decoded h
  obtain ⟨rest, h⟩ := h
  simp only [decode, decodeWith, hl] at h
  split at h
  · cases h
  · next i' e =>
    cases h
    obtain ⟨-, hb, hw⟩ := instr_eq_some e
    exact ⟨hw, hb⟩

/-- The first register operand of a well-formed instruction is its first operand byte. -/
theorem head_operandBytes (hw : i.wellFormed = true) (hr : (regOperands i).head? = some r) :
    ∃ b, i.operandBytes.head? = some b ∧ b.toNat = r := by
  obtain ⟨hb, hf⟩ : i.operandBytes.head? = some (operandByte r) ∧ operandFits r = true := by
    cases i <;> simp_all [regOperands, Instr.operandBytes, Instr.wellFormed]
  exact ⟨_, hb, operandByte_toNat hf⟩

/-- The first register operand of what was decoded is the byte after the opcode. -/
theorem first_operand_of_decoded (h : s.decoded i) (hr : (regOperands i).head? = some r) :
    (s.byteAt (s.pc + 1)).toNat = r := by
  obtain ⟨hw, hb⟩ := operandBytes_of_decoded h
  obtain ⟨b, hh, rfl⟩ := head_operandBytes hw hr
  rw [hb] at hh
  cases e : arity (s.byteAt s.pc) with
  | zero => simp [e] at hh
  | succ n => simpa [e] using congrArg (Option.map BitVec.toNat) hh

/-! ### The stack pointer -/

/-- A register write that changes SP is a write of R7. -/
theorem eq_sp_of_setReg_sp_ne {v : Byte} (h : (s.setReg r v).sp ≠ s.sp) : r = 7 := by
  by_contra hr
  exact h (setReg_reg_other (Ne.symm hr))

/-- An effect that changes SP is that of a stack instruction, or writes R7 as the first operand of LDI, ADD or MUL. -/
theorem handler_of_effect_sp_ne (h : (effect s i).sp ≠ s.sp) :
    i.handler = .push ∨ i.handler = .pop ∨ i.handler = .call ∨ i.handler = .ret ∨
      ((i.handler = .ldi ∨ i.handler = .add ∨ i.handler = .mul) ∧ (regOperands i).head? = some 7) := by
  cases i with
  | push | pop | call | ret => simp [Instr.handler]
  | ldi r imm | add r b | mul r b =>
    have hr : r = 7 := eq_sp_of_setReg_sp_ne h
    simp [Instr.handler, regOperands, hr]
  | hlt | prn | cmp | jmp => simp [effect] at h

/-- Settles O19: the step is the effect of the instruction decoded, and only the stack instructions and a write of R7
change SP. -/
theorem spChangesOnlyByStackOrOperandSeven : Obligations.SpChangesOnlyByStackOrOperandSeven := by
  intro s t h ht hsp
  obtain ⟨-, i, hi, -, rfl⟩ := step_effect_of_not_failed h ht
  have hd (hr : (regOperands i).head? = some 7) : (s.byteAt (s.pc + 1)).toNat = 7 := first_operand_of_decoded hi hr
  exact ⟨i.handler, lookup_of_decoded hi,
    (handler_of_effect_sp_ne hsp).imp_right (.imp_right (.imp_right (.imp_right (.imp_right hd))))⟩

end Sys2Proof.Machine
end

section
/-! PROOFS. The fetch names the first of its three addresses that does not exist, and a register index is tested before
the cell. -/

namespace Sys2Proof.Machine

open Sys2Proof

variable {s : State} {a i : Nat}

/-- The first address a fetch cannot read is `pc` where `pc` is past memory, and otherwise 256. -/
theorem fetch_error_of_eq_max (h : 256 ≤ s.pc + 2) (ha : a = max s.pc 256) : fetch s = .error (.outOfBoundsMem a) := by
  rw [ha, fetch_of_ge h]

/-- Settles O8: three bytes that exist are read; of those that do not, the fault names the first. -/
theorem fetchReadsThreeBytesOrFaults : Obligations.FetchReadsThreeBytesOrFaults := by
  intro s
  refine ⟨fetch_of_lt, fun h0 => ?_, fun h0 h1 => ?_, fun h1 h2 => ?_⟩
  · exact fetch_error_of_eq_max (by omega) (by omega)
  · exact fetch_error_of_eq_max (by omega) (by omega)
  · exact fetch_error_of_eq_max h2 (by omega)

/-- A read of a valid index never faults on the index, whether or not the cell is written. -/
theorem readReg_ne_outOfBoundsReg (h : i < 8) : readReg i s ≠ .error (.outOfBoundsReg i) := by
  intro e
  obtain ⟨h8, -⟩ | ⟨-, -, hf⟩ := readReg_error_iff.mp e
  · omega
  · cases hf

/-- Settles O41: both accesses fault on an index of 8 or more, and below 8 the only fault is that of an unwritten read. -/
theorem registerIndexIsValidBelowEight : Obligations.RegisterIndexIsValidBelowEight := by
  intro s i v
  refine ⟨fun h8 => ⟨?_, ?_⟩, fun h8 => ⟨readReg_ne_outOfBoundsReg h8, _, writeReg_of_lt h8⟩⟩
  · exact readReg_error_iff.mpr (.inl ⟨h8, rfl⟩)
  · exact writeReg_error_iff.mpr ⟨h8, rfl⟩

end Sys2Proof.Machine
end

section
/-! PROOFS. A memory read is settled by the one comparison of its address with the size of the memory. -/

namespace Sys2Proof.Machine

open Sys2Proof

/-- Settles O44 by the two laws of memory reads, one on each side of address 256. -/
theorem memReadIsBounded : Obligations.MemReadIsBounded := fun _ _ => ⟨memRead_of_lt, memRead_of_ge⟩

end Sys2Proof.Machine
end

section
/-! PROOFS. The shift by six is the division by 64, and no row of an opcode map has the arity 3, because no format has
three operands. -/

namespace Sys2Proof.Machine

open Sys2Proof

variable {m : OpcodeMap} {op : Byte}

theorem arity_eq_div (op : Byte) : arity op = op.toNat / 64 :=
  (BitVec.toNat_ushiftRight op 6).trans (Nat.shiftRight_eq_div_pow op.toNat 6)

theorem operandCount_le_two (f : Format) : f.operandCount ≤ 2 := by
  cases f <;> decide

/-- A byte of arity 3 has no row in any map whose opcodes carry their operand counts (R60, R62). -/
theorem lookupIn_eq_none_of_arity_three (hm : m.Wf) (h3 : arity op = 3) : lookupIn m op = none := by
  refine lookupIn_eq_none_iff.mpr fun h e => ?_
  have hc : h.format.operandCount = 3 := by rw [← hm.1 h (mem_all h), e, h3]
  have := operandCount_le_two h.format
  omega

/-- Settles O47 by the shift read as a division, and by the operand counts of the machine's map. -/
theorem arityIsBits7And6 : Obligations.ArityIsBits7And6 := fun op =>
  ⟨arity_eq_div op, lookupIn_eq_none_of_arity_three opcodeMap_conditions⟩

end Sys2Proof.Machine
end

section
/-! PROOFS. A step runs what it decoded, after the advance; of the effects, only those of CALL, RET and JMP set `pc`,
each from a byte. -/

namespace Sys2Proof.Machine

open Sys2Proof

variable {s : State} {i : Instr}

/-- The effect of any instruction other than CALL, RET and JMP leaves `pc` as it is. -/
theorem effect_pc_of_not_transfer (hc : i.handler ≠ .call) (hr : i.handler ≠ .ret) (hj : i.handler ≠ .jmp) :
    (effect s i).pc = s.pc := by
  cases i with
  | call r => exact absurd rfl hc
  | ret => exact absurd rfl hr
  | jmp r => exact absurd rfl hj
  | hlt | ldi | prn | add | mul | cmp | push | pop => rfl

/-- The effect of CALL, RET or JMP loads `pc` with a byte: of a register, or of the cell at SP. -/
theorem effect_pc_lt_of_transfer (h : i.handler = .call ∨ i.handler = .ret ∨ i.handler = .jmp) :
    (effect s i).pc < 256 := by
  cases i with
  | call r => exact ((decSp s).reg r).isLt
  | ret => exact (s.byteAt (popAddr s)).isLt
  | jmp r => exact (s.reg r).isLt
  | hlt | ldi | prn | add | mul | cmp | push | pop => simp [Instr.handler] at h

/-- Settles O14: what does not fail is an effect, and the effects other than those of CALL, RET and JMP keep `pc`. -/
theorem onlyControlTransfersSetPc : Obligations.OnlyControlTransfersSetPc := by
  refine ⟨fun i s t h hc hr hj ht => ?_, fun s t hd h ht hl => ?_⟩
  · obtain ⟨-, rfl⟩ := effect_of_not_failed h ht
    exact effect_pc_of_not_transfer hc hr hj
  · obtain ⟨-, i, hi, -, rfl⟩ := step_effect_of_not_failed h ht
    obtain rfl : i.handler = hd := Option.some.inj ((lookup_of_decoded hi).symm.trans hl)
    exact ⟨effect_pc_of_not_transfer, effect_pc_lt_of_transfer⟩

/-- Settles O6: the handler that the opcode byte selects decodes the operand bytes, which fixes the instruction and the
bytes left over, and the cycle runs that instruction after the advance. -/
theorem stepRunsDecodedInstruction : Obligations.StepRunsDecodedInstruction := by
  intro s i rest hrun hpc hd
  have hi : s.decoded i := ⟨rest, hd⟩
  have hl := lookup_of_decoded hi
  obtain ⟨i', he, -, hb⟩ := decode_of_lookup hl
  cases he.symm.trans hd
  exact ⟨hl, hb, rfl, (step_of_running hrun).trans (cycle_of_decoded hpc hi)⟩

end Sys2Proof.Machine
end

section
/-! PROOFS. HLT is the only instruction whose effect sets the engine state, and a fault sets it to Faulted, so a step that
leads to Halted ran HLT; LDI is one register write, and its only fault is an invalid index. -/

namespace Sys2Proof.Machine

open Sys2Proof

variable {s t : State} {i : Instr} {r : Nat} {imm v : Byte} {f : Fault}

/-! ### HLT -/

theorem not_failed_of_halted (h : t.run = .halted) : ¬ t.Failed := by
  rintro ⟨f, hf⟩
  cases h.symm.trans hf

/-- The effect of any instruction other than HLT leaves the engine state as it is. -/
theorem effect_run_of_not_hlt (h : i.handler ≠ .hlt) : (effect s i).run = s.run := by
  cases i with
  | hlt => exact absurd rfl h
  | ldi | prn | add | mul | cmp | push | pop | call | ret | jmp => rfl

theorem exec_hlt : exec .hlt s = .next (haltEngine s) := exec_of_ready (i := .hlt) trivial

/-- A running machine at a byte of HLT halts, past that byte. -/
theorem step_of_hlt_byte (hrun : s.run = .running) (hpc : s.pc + 2 < 256) (hb : s.byteAt s.pc = 0b00000001) :
    step s = .next (haltEngine (advancePc 0 s)) := by
  have hd : s.decoded .hlt := ⟨_, by rw [hb]; rfl⟩
  have ha : arity (s.byteAt s.pc) = 0 := by rw [hb]; rfl
  rw [step_of_running hrun, cycle_of_decoded hpc hd, ha, exec_hlt]

/-- A step that leads to Halted ran the instruction HLT, which was fetched with the two bytes after it. -/
theorem hlt_byte_of_step_halted (h : step s = .next t) (ht : t.run = .halted) :
    s.pc + 2 < 256 ∧ s.byteAt s.pc = 0b00000001 := by
  obtain ⟨hrun, -⟩ := step_cases h
  obtain ⟨hpc, i, hi, -, rfl⟩ := step_effect_of_not_failed h (not_failed_of_halted ht)
  have hhlt : i.handler = .hlt := by
    by_contra hne
    rw [effect_run_of_not_hlt hne, advancePc_run, hrun] at ht
    cases ht
  have hop : opcodeMap i.handler = s.byteAt s.pc := opcode_of_lookupIn (lookup_of_decoded hi)
  rw [hhlt] at hop
  exact ⟨hpc, hop.symm⟩

/-- Settles O25: HLT changes the engine state alone, and a step to Halted is that of HLT, fetched below address 254. -/
theorem hltHaltsAndNothingElseDoes : Obligations.HltHaltsAndNothingElseDoes := by
  refine ⟨rfl, rfl, fun s => ?_, fun s hrun hpc hb => ?_, fun s t hpc h ht => ?_, fun s t h ht => ?_⟩
  · exact ⟨_, exec_hlt, rfl, rfl, fun _ => ⟨rfl, rfl⟩, fun _ => rfl, rfl, rfl⟩
  · exact ⟨_, step_of_hlt_byte hrun hpc hb, rfl, rfl, fun _ => ⟨rfl, rfl⟩, fun _ => rfl, rfl, rfl⟩
  · obtain ⟨hlt, -⟩ := hlt_byte_of_step_halted h ht
    omega
  · exact (hlt_byte_of_step_halted h ht).2

/-! ### LDI -/

theorem sameRegsBut_setReg : SameRegsBut r s (s.setReg r v) := fun _ hj =>
  ⟨setReg_reg_other hj, setReg_isWritten_other hj⟩

theorem readable_setReg (h : r < 8) : (s.setReg r v).Readable r := ⟨h, setReg_isWritten_same⟩

theorem exec_ldi (h : r < 8) : exec (.ldi r imm) s = .next (s.setReg r imm) := exec_of_ready (i := .ldi r imm) h

/-- LDI reads no register, so the only fault of its operand is an invalid index. -/
theorem operandFault_ldi (h : OperandFault s (.ldi r imm) f) : f = .outOfBoundsReg r := by
  cases h with
  | index r' hr => rw [List.mem_singleton.mp hr]
  | unwritten r' hr _ _ hl =>
    obtain rfl : r' = r := List.mem_singleton.mp hr
    exact absurd rfl (hl imm)

/-- Settles O26: where its index is valid LDI is a write of that register, which PRN can then read, and where it is not
the fault is that of the index. -/
theorem ldiLoadsImmediate : Obligations.LdiLoadsImmediate := by
  refine ⟨fun r imm => rfl, fun s r imm hr => ?_, fun s imm => ?_, fun s r imm hr => ?_, fun s t r imm hr h => ?_⟩
  · exact ⟨_, exec_ldi hr, setReg_reg_same hr, setReg_isWritten_same, sameRegsBut_setReg, fun _ => rfl,
      rfl, rfl, rfl, rfl⟩
  · exact ⟨_, exec_ldi (by decide), setReg_reg_same (by decide)⟩
  · obtain ⟨f, u, hf, -, e⟩ := exec_of_not_ready (i := .ldi r imm) (Nat.not_lt.mpr hr)
    exact ⟨_, e, congrArg RunState.faulted (operandFault_ldi hf)⟩
  · cases (exec_ldi hr).symm.trans h
    refine ⟨_, exec_of_ready (i := .prn r) (readable_setReg hr), ?_⟩
    rw [effect, emit_out, setReg_reg_same hr]

end Sys2Proof.Machine
end

section
/-! PROOFS. ADD and MUL of the ALU are the sum and the product of the bytes as bit vectors, and give no flags; modulo
256 and commutativity are then those of the bit vectors. -/

namespace Sys2Proof.Machine

open Sys2Proof

theorem narrow_add_toNat (a b : Byte) : narrow ((a.toNat : Int) + b.toNat) = a + b :=
  BitVec.eq_of_toNat_eq ((toNat_narrow_add a b).trans (BitVec.toNat_add a b).symm)

theorem narrow_mul_toNat (a b : Byte) : narrow ((a.toNat : Int) * b.toNat) = a * b :=
  BitVec.eq_of_toNat_eq ((toNat_narrow_mul a b).trans (BitVec.toNat_mul a b).symm)

theorem aluApply_add (a b : Byte) : aluApply .add a b = .ok { result := some (a + b), flags := none } := by
  rw [aluApply, narrow_add_toNat]

theorem aluApply_mul (a b : Byte) : aluApply .mul a b = .ok { result := some (a * b), flags := none } := by
  rw [aluApply, narrow_mul_toNat]

/-- Settles O28: the ALU's ADD is the sum of two bit vectors, whatever the carry. -/
theorem aluAddIsSumModulo256 : Obligations.AluAddIsSumModulo256 := by
  refine ⟨fun a b => ⟨a + b, aluApply_add a b, BitVec.toNat_add a b⟩, fun a b => ?_,
    aluApply_add 200 100, aluApply_add 255 1, aluApply_add 0 0⟩
  rw [aluApply_add, aluApply_add, BitVec.add_comm]

/-- Settles O29: the ALU's MUL is the product of two bit vectors, which keeps the low eight bits. -/
theorem aluMulIsProductModulo256 : Obligations.AluMulIsProductModulo256 := by
  refine ⟨fun a b => ⟨a * b, aluApply_mul a b, BitVec.toNat_mul a b⟩, fun a b => ?_,
    aluApply_mul 16 16, aluApply_mul 255 255, aluApply_mul 15 17, fun b => ?_⟩
  · rw [aluApply_mul, aluApply_mul, BitVec.mul_comm]
  · rw [aluApply_mul, show 0 * b = 0 from BitVec.zero_mul]

end Sys2Proof.Machine
end

section
/-! PROOFS. No effect enters a fault, so a fault that a handler ends in is one of its operands, and a fault that a step
ends in is that of the fetch, of the dispatch, or of an operand. -/

namespace Sys2Proof.Machine

open Sys2Proof

variable {s t : State} {i : Instr} {r a b : Nat} {f : Fault}

/-! ### The faults a step can end in -/

/-- The effect of an instruction in a running machine leaves it running, or halts it. -/
theorem not_failed_effect (hs : s.run = .running) : ¬ (effect s i).Failed := by
  rintro ⟨f, hf⟩
  by_cases hi : i.handler = .hlt
  · cases i <;> cases hi
    cases hf
  · rw [effect_run_of_not_hlt hi, hs] at hf
    cases hf

/-- A fault that a handler ends in is the fault of an operand of its instruction. -/
theorem operandFault_of_exec_faulted (hs : s.run = .running) (h : exec i s = .next t) (ht : t.run = .faulted f) :
    OperandFault s i f := by
  obtain ⟨-, rfl⟩ | ⟨-, f', u, hf, -, rfl⟩ := exec_cases h
  · exact absurd ⟨f, ht⟩ (not_failed_effect hs)
  · cases ht
    exact hf

/-- A fault that a step ends in is that of the fetch, that of the dispatch, or that of an operand of the instruction
decoded. -/
theorem step_faulted_cases (h : step s = .next t) (ht : t.run = .faulted f) :
    (256 ≤ s.pc + 2 ∧ f = .outOfBoundsMem (max s.pc 256)) ∨
    (s.pc + 2 < 256 ∧ lookup (s.byteAt s.pc) = none ∧ f = .unknownOpcode (s.byteAt s.pc) s.pc) ∨
    (s.pc + 2 < 256 ∧ ∃ i, s.decoded i ∧ OperandFault (advancePc (arity (s.byteAt s.pc)) s) i f) := by
  obtain ⟨hrun, ⟨hpc, rfl⟩ | ⟨hpc, hl, rfl⟩ | ⟨hpc, i, hi, he⟩⟩ := step_cases h
  · cases ht
    exact .inl ⟨hpc, rfl⟩
  · cases ht
    exact .inr (.inl ⟨hpc, hl, rfl⟩)
  · exact .inr (.inr ⟨hpc, i, hi, operandFault_of_exec_faulted hrun he ht⟩)

/-! ### UnsupportedOperation -/

/-- The ALU answers each of its three operations. -/
theorem aluApply_ok {op : AluOp} (hop : op = .add ∨ op = .mul ∨ op = .cmp) (x y : Byte) :
    ∃ o, aluApply op x y = .ok o := by
  obtain rfl | rfl | rfl := hop
  · exact ⟨_, rfl⟩
  · exact ⟨_, rfl⟩
  · exact ⟨_, rfl⟩

/-- Settles O31: the ALU answers ADD, MUL and CMP, and none of the faults a step can end in is UnsupportedOperation. -/
theorem unsupportedOperationIsAluOnly : Obligations.UnsupportedOperationIsAluOnly := by
  refine ⟨fun symbol x y => rfl, fun op x y v hop h => ?_, fun s t op h ht => ?_⟩
  · obtain ⟨o, ho⟩ := aluApply_ok hop x y
    cases ho.symm.trans h
  · obtain ⟨-, hf⟩ | ⟨-, -, hf⟩ | ⟨-, i, -, hf⟩ := step_faulted_cases h ht
    · cases hf
    · cases hf
    · cases hf

/-! ### OutOfBounds of a register operand -/

/-- A register operand of 8 or more can be used by no instruction. -/
theorem not_ready_of_operand_ge (hr : r ∈ regOperands i) (h8 : 8 ≤ r) : ¬ Ready s i := by
  cases i with
  | hlt | ret => cases hr
  | ldi r' | pop r' =>
    obtain rfl : r = r' := List.mem_singleton.mp hr
    exact Nat.not_lt.mpr h8
  | prn r' | push r' | call r' | jmp r' =>
    obtain rfl : r = r' := List.mem_singleton.mp hr
    exact fun h => Nat.not_lt.mpr h8 h.1
  | add a b | mul a b | cmp a b =>
    obtain rfl | hb := List.mem_cons.mp hr
    · exact fun h => Nat.not_lt.mpr h8 h.1.1
    · obtain rfl : r = b := List.mem_singleton.mp hb
      exact fun h => Nat.not_lt.mpr h8 h.2.1

/-- An instruction whose one register operand is 8 or more ends in the fault of that index. -/
theorem exec_of_single_operand_ge (hi : regOperands i = [r]) (h8 : 8 ≤ r) :
    ∃ t, exec i s = .next t ∧ t.run = .faulted (.outOfBoundsReg r) := by
  have hr : r ∈ regOperands i := by simp [hi]
  have honly : ∀ r' ∈ regOperands i, r' = r := by simp [hi]
  obtain ⟨f, u, hf, -, e⟩ := exec_of_not_ready (not_ready_of_operand_ge (s := s) hr h8)
  refine ⟨_, e, congrArg RunState.faulted ?_⟩
  cases hf with
  | index r' hr' => rw [honly r' hr']
  | unwritten r' hr' h7 =>
    have := honly r' hr'
    omega

/-- ADD, MUL and CMP are each one operation of the ALU on their two operands. -/
theorem exec_eq_aluInstr (hi : i = .add a b ∨ i = .mul a b ∨ i = .cmp a b) : ∃ op, exec i s = aluInstr op a b s := by
  obtain rfl | rfl | rfl := hi
  · exact ⟨.add, rfl⟩
  · exact ⟨.mul, rfl⟩
  · exact ⟨.cmp, rfl⟩

theorem aluInstr_of_first_ge (op : AluOp) (ha : 8 ≤ a) :
    aluInstr op a b s = .next (raiseFault (.outOfBoundsReg a) s) :=
  withReg_of_ge ha

theorem aluInstr_of_second_ge (op : AluOp) (ha : s.Readable a) (hb : 8 ≤ b) :
    aluInstr op a b s = .next (raiseFault (.outOfBoundsReg b) s) :=
  (withReg_of_readable ha).trans (withReg_of_ge hb)

/-- An instruction without register operands never ends in the fault of an index. -/
theorem exec_of_no_operand (hs : s.run = .running) (hi : regOperands i = []) :
    ∃ t, exec i s = .next t ∧ t.run ≠ .faulted (.outOfBoundsReg r) := by
  obtain ⟨t, h⟩ := exec_next i s
  refine ⟨t, h, fun ht => ?_⟩
  cases operandFault_of_exec_faulted hs h ht with
  | index _ hr => exact List.not_mem_nil (hi ▸ hr)

/-- Settles O42: the fault is that of the one operand, or of the first of two that is invalid; HLT and RET have none. -/
theorem invalidRegisterOperandFaults : Obligations.InvalidRegisterOperandFaults := by
  refine ⟨fun s r imm i h8 hi => ?_, fun s a b i ha hi => ?_, fun s a b i ha hb hi => ?_, fun s i r hs hi => ?_⟩
  · have hr : regOperands i = [r] := by
      obtain rfl | rfl | rfl | rfl | rfl | rfl := hi <;> rfl
    exact exec_of_single_operand_ge hr h8
  · obtain ⟨op, e⟩ := exec_eq_aluInstr hi
    exact ⟨_, e.trans (aluInstr_of_first_ge op ha), rfl⟩
  · obtain ⟨op, e⟩ := exec_eq_aluInstr hi
    exact ⟨_, e.trans (aluInstr_of_second_ge op ha hb), rfl⟩
  · have hn : regOperands i = [] := by
      obtain rfl | rfl := hi <;> rfl
    exact exec_of_no_operand hs hn

end Sys2Proof.Machine
end

section
/-! PROOFS. The handler that a row of the dispatch table selects runs at the advanced `pc`, on operand bytes taken from
the memory before it; what CALL stores and what HLT leaves follow from its effect there. -/

namespace Sys2Proof.Machine

open Sys2Proof

variable {s t : State} {i : Instr} {h : Handler} {r : Nat}

/-- A running machine at an opcode of the handler `h` runs the instruction that `h` makes of the prefetched bytes, after
the advance past as many operand bytes as its format has. -/
theorem step_of_lookup (hrun : s.run = .running) (hpc : s.pc + 2 < 256) (hl : lookup (s.byteAt s.pc) = some h)
    (hi : h.instr ([s.byteAt (s.pc + 1), s.byteAt (s.pc + 2)].take h.format.operandCount) = some i) :
    step s = exec i (advancePc h.format.operandCount s) := by
  have ha : arity (s.byteAt s.pc) = h.format.operandCount := by
    rw [← opcode_of_lookupIn hl]
    exact opcodeMap_conditions.1 h (mem_all h)
  have hd : s.decoded i := by
    rw [lookup] at hl
    refine ⟨[s.byteAt (s.pc + 1), s.byteAt (s.pc + 2)].drop h.format.operandCount, ?_⟩
    simp only [decode, decodeWith, hl, ha, hi]
  rw [step_of_running hrun, cycle_of_decoded hpc hd, ha]

/-- A CALL that does not fail leaves the byte of `pc`, as its handler saw it, in the cell below SP. -/
theorem byteAt_pushAddr_of_call (hm : s.mem.wf = true) (hpc : s.pc < 256) (hc : exec (.call r) s = .next t)
    (ht : ¬ t.Failed) : (t.byteAt (pushAddr s)).toNat = s.pc := by
  obtain ⟨-, rfl⟩ := effect_of_not_failed hc ht
  have hst : (effect s (.call r)).byteAt (pushAddr s) = pcByte s := stored_byteAt_same hm
  rw [hst, pcByte_toNat hpc]

/-- A machine whose fetch leaves memory fails. -/
theorem step_fails_of_fetch_fault (hrun : s.run = .running) (hpc : 256 ≤ s.pc + 2) : ∃ t, step s = .next t ∧ t.Failed :=
  ⟨_, (step_of_running hrun).trans (cycle_of_fetch_fault hpc), failed_raiseFault _ _⟩

/-- Settles O13: the handler runs on the prefetched bytes at the advanced `pc`, wherever it stores, and at the top two
addresses the prefetch faults before any handler runs. -/
theorem advanceAndPrefetchComeBeforeHandler : Obligations.AdvanceAndPrefetchComeBeforeHandler := by
  intro s hm hrun
  refine ⟨fun hpc hl t h ht => ?_, fun hpc hl => ?_, fun hpc _ r hr => ?_, fun htop => ?_⟩
  · exact byteAt_pushAddr_of_call (s := advancePc 1 s) hm hpc ((step_of_lookup hrun hpc hl rfl).symm.trans h) ht
  · exact ⟨_, (step_of_lookup hrun hpc hl rfl).trans exec_hlt, rfl⟩
  · subst hr
    exact ⟨fun hl => step_of_lookup hrun hpc hl rfl, fun hl => step_of_lookup hrun hpc hl rfl⟩
  · exact step_fails_of_fetch_fault hrun (by omega)

end Sys2Proof.Machine
end

section
/-! PROOFS. The encoder and the decoder are inverse to each other: the opcode gives its handler back, and the handler
its operand bytes. What the encoding table lists, and the bytes it leaves illegal, follow. -/

namespace Sys2Proof.Machine

open Sys2Proof

variable {m : OpcodeMap} {i : Instr} {op : Byte}

/-- The operand count in an opcode is the number of operand bytes of its instruction. -/
theorem arity_opcode (hm : m.Wf) (i : Instr) : arity (m i.handler) = i.operandBytes.length := by
  rw [hm.1 i.handler (mem_all _), operandBytes_length]

theorem decodeWith_encodeWith (hm : m.Wf) (hi : i.wellFormed = true) (rest : List Byte) :
    decodeWith m (encodeWith m i ++ rest) = .ok (i, rest) := by
  simp only [encodeWith, List.cons_append, decodeWith, lookupIn_opcode hm, arity_opcode hm,
    List.take_left, List.drop_left, instr_operandBytes i hi]

theorem decode_encode (hi : i.wellFormed = true) : decode (encode i) = .ok (i, []) := by
  have h := decodeWith_encodeWith opcodeMap_conditions hi []
  rwa [List.append_nil] at h

/-- What decodes starts with an opcode of the table, and its handler makes the instruction of the operand bytes. -/
theorem decodeWith_ok_cases {bytes rest : List Byte} (e : decodeWith m bytes = .ok (i, rest)) :
    ∃ op tail h, bytes = op :: tail ∧ lookupIn m op = some h ∧ h.instr (tail.take (arity op)) = some i ∧
      rest = tail.drop (arity op) := by
  cases bytes with
  | nil => cases e
  | cons op tail =>
    simp only [decodeWith] at e
    split at e
    · cases e
    · next h hl =>
      split at e
      · cases e
      · next i' hi =>
        cases e
        exact ⟨op, tail, h, rfl, hl, hi, rfl⟩

/-- Settles O50: the table gives the handler of the opcode, and the handler takes exactly its operand bytes. -/
theorem decodeOfEncode : Obligations.DecodeOfEncode :=
  ⟨opcodeMap_conditions, fun _ _ rest hm hi => decodeWith_encodeWith hm hi rest⟩

/-- Settles O51: the row found carries the opcode byte, and the instruction made carries the operand bytes taken. -/
theorem encodeOfDecode : Obligations.EncodeOfDecode := by
  intro m bytes rest i e
  obtain ⟨op, tail, h, rfl, hl, hi, rfl⟩ := decodeWith_ok_cases e
  obtain ⟨rfl, hb, hw⟩ := instr_eq_some hi
  refine ⟨hw, ?_⟩
  rw [encodeWith, opcode_of_lookupIn hl, hb, List.cons_append, List.take_append_drop]

/-- Settles O48: each row is the encoding of its instruction, so it decodes to it. -/
theorem opcodeWordsDecodeAsTheTable : Obligations.OpcodeWordsDecodeAsTheTable :=
  ⟨decode_encode (i := .hlt) rfl, decode_encode (i := .ldi 0 8) rfl, decode_encode (i := .prn 0) rfl,
    decode_encode (i := .add 1 2) rfl, decode_encode (i := .mul 1 2) rfl, decode_encode (i := .cmp 1 2) rfl,
    decode_encode (i := .push 3) rfl, decode_encode (i := .pop 4) rfl, decode_encode (i := .call 5) rfl,
    decode_encode (i := .ret) rfl, decode_encode (i := .jmp 6) rfl⟩

/-- A byte has no row exactly when it is the opcode of no handler. -/
theorem lookup_eq_none_iff_not_mem : lookup op = none ↔ op ∉ Handler.all.map opcodeMap := by
  rw [lookup, lookupIn_eq_none_iff]
  simp [mem_all]

/-- A number below 256 has a row exactly when it is one of the opcodes. -/
theorem lookup_ofNat_ne_none_iff {n : Nat} : n < 256 ∧ lookup (BitVec.ofNat 8 n) ≠ none ↔
    n ∈ (Handler.all.map opcodeMap).map BitVec.toNat := by
  rw [Ne, lookup_eq_none_iff_not_mem, not_not]
  constructor
  · rintro ⟨hn, hmem⟩
    exact List.mem_map.mpr ⟨_, hmem, (BitVec.toNat_ofNat n 8).trans (Nat.mod_eq_of_lt hn)⟩
  · intro h
    obtain ⟨op, hmem, rfl⟩ := List.mem_map.mp h
    exact ⟨op.isLt, by rwa [BitVec.ofNat_toNat, BitVec.setWidth_eq]⟩

/-- The eleven opcodes are distinct, so 245 of the 256 bytes have no row. -/
theorem illegalBytes_length : ((List.range 256).filter fun n => lookup (BitVec.ofNat 8 n) == none).length = 245 := by
  have hrows : ((List.range 256).filter fun n => !(lookup (BitVec.ofNat 8 n) == none)).Perm
      ((Handler.all.map opcodeMap).map BitVec.toNat) := by
    refine (List.perm_ext_iff_of_nodup (List.nodup_range.filter _) (by decide)).mpr fun n => ?_
    rw [← lookup_ofNat_ne_none_iff]
    simp [Option.isSome_iff_ne_none]
  have hlen := List.length_eq_length_filter_add (l := List.range 256) fun n => lookup (BitVec.ofNat 8 n) == none
  rw [hrows.length_eq, List.length_range] at hlen
  exact Nat.add_right_cancel hlen.symm

/-- Settles O49: the rows are the images of the eleven handlers, and a byte of 0xC0 or more has the arity 3 of none. -/
theorem otherBytesAreIllegal : Obligations.OtherBytesAreIllegal := by
  refine ⟨fun op => lookup_eq_none_iff_not_mem, illegalBytes_length, fun op h rest => decode_of_no_lookup ?_⟩
  have h3 : arity op = 3 := by
    have := op.isLt
    rw [arity_eq_div]
    omega
  exact lookupIn_eq_none_of_arity_three opcodeMap_conditions h3

end Sys2Proof.Machine
end

section
/-! PROOFS. Every update of the state that an instruction is made of keeps the invariant and the marks of written
registers; so does an effect, so does a handler that stops at a fault, and so does a step. -/

namespace Sys2Proof.Machine

open Sys2Proof

variable {s t u : State} {i : Instr} {r j n : Nat} {v : Byte} {f : Fault}

/-! ### The invariant under the updates -/

theorem inv_construct (init : Config.RegInit) : (State.construct init).Inv := by
  cases init <;> decide

theorem inv_raiseFault (hs : s.Inv) : (raiseFault f s).Inv := hs

theorem inv_advancePc (hs : s.Inv) (hn : s.pc + 1 + n ≤ 257) : (advancePc n s).Inv := by
  obtain ⟨hm, -, hf, hu⟩ := hs
  exact ⟨hm, hn, hf, hu⟩

theorem inv_loadPc (hs : s.Inv) : (loadPc v s).Inv := by
  obtain ⟨hm, -, hf, hu⟩ := hs
  have hv : v.toNat ≤ 257 := by
    have := v.isLt
    omega
  exact ⟨hm, hv, hf, hu⟩

theorem inv_setFlags (hs : s.Inv) (hv : flagsLegal v = true) : (setFlags v s).Inv := by
  obtain ⟨hm, hp, -, hu⟩ := hs
  exact ⟨hm, hp, hv, hu⟩

theorem inv_setReg (hs : s.Inv) : (s.setReg r v).Inv := by
  obtain ⟨hm, hp, hf, hu⟩ := hs
  refine ⟨hm, hp, hf, fun j hj hw => ?_⟩
  have hne : j ≠ r := by
    rintro rfl
    cases hw.symm.trans setReg_isWritten_same
  rw [setReg_isWritten_other hne] at hw
  rw [setReg_reg_other hne]
  exact hu j hj hw

theorem inv_decSp (hs : s.Inv) : (decSp s).Inv := inv_setReg hs

theorem inv_incSp (hs : s.Inv) : (incSp s).Inv := inv_setReg hs

theorem inv_write {a : Nat} (hs : s.Inv) (ha : a < 256) : ({ s with mem := s.mem.write a v } : State).Inv := by
  obtain ⟨hm, hp, hf, hu⟩ := hs
  exact ⟨write_wf hm ha, hp, hf, hu⟩

theorem inv_stored (hs : s.Inv) : (stored v s).Inv := inv_write (inv_decSp hs) pushAddr_lt

/-- The comparison answers exactly one flag, at the positions of D3. -/
theorem cmpFlags_cases (a b : Byte) : cmpFlags a b = 0x01 ∨ cmpFlags a b = 0x02 ∨ cmpFlags a b = 0x04 := by
  unfold cmpFlags cmpFlagsIn
  split
  · exact .inr (.inl rfl)
  · split
    · exact .inl rfl
    · exact .inr (.inr rfl)

theorem flagsLegal_cmpFlags (a b : Byte) : flagsLegal (cmpFlags a b) = true := by
  obtain h | h | h := cmpFlags_cases a b <;> rw [h] <;> rfl

/-! ### The invariant under an instruction and a step -/

theorem inv_effect (hs : s.Inv) (i : Instr) : (effect s i).Inv := by
  cases i with
  | hlt => exact hs
  | ldi r imm => exact inv_setReg hs
  | prn r => exact hs
  | add a b => exact inv_setReg hs
  | mul a b => exact inv_setReg hs
  | cmp a b => exact inv_setFlags hs (flagsLegal_cmpFlags _ _)
  | push r => exact inv_stored hs
  | pop r => exact inv_incSp (inv_setReg hs)
  | call r => exact inv_loadPc (inv_stored hs)
  | ret => exact inv_incSp (inv_loadPc hs)
  | jmp r => exact inv_loadPc hs

theorem inv_of_stoppedIn (hs : s.Inv) (h : StoppedIn s u) : u.Inv := by
  cases h with
  | same => exact hs
  | decremented => exact inv_decSp hs
  | stored v => exact inv_stored hs

theorem inv_of_exec (hs : s.Inv) (h : exec i s = .next t) : t.Inv := by
  obtain ⟨-, rfl⟩ | ⟨-, f, u, -, hu, rfl⟩ := exec_cases h
  · exact inv_effect hs i
  · exact inv_raiseFault (inv_of_stoppedIn hs hu)

/-- The advance past a fetched instruction ends at 257 at most, and there only for a byte of arity 3. -/
theorem inv_advancePc_arity (hs : s.Inv) (hpc : s.pc + 2 < 256) (op : Byte) : (advancePc (arity op) s).Inv := by
  have := op.isLt
  have := arity_eq_div op
  exact inv_advancePc hs (by omega)

/-- Settles O4: a step is a fault taken in a state with the invariant, or an instruction run after an advance. -/
theorem stepKeepsInv : Obligations.StepKeepsInv := by
  intro s t hs h
  obtain ⟨-, ⟨-, rfl⟩ | ⟨hpc, -, rfl⟩ | ⟨hpc, i, -, he⟩⟩ := step_cases h
  · exact inv_raiseFault hs
  · exact inv_raiseFault (inv_advancePc_arity hs hpc _)
  · exact inv_of_exec (inv_advancePc_arity hs hpc _) he

/-! ### Construction -/

/-- Settles O1 by the fields of the two constructions. -/
theorem constructionLeavesSpecValues : Obligations.ConstructionLeavesSpecValues := by
  refine ⟨fun init => ⟨fun a => rfl, rfl, isWritten_sp, rfl, rfl, rfl, rfl⟩, ?_, ?_, rfl⟩
  · decide
  · decide

/-- Settles O2: both constructions have the invariant, and reset is one of them. -/
theorem invHoldsAtConstruction : Obligations.InvHoldsAtConstruction := ⟨inv_construct _, inv_construct⟩

/-! ### Written registers -/

theorem isWritten_setReg (h : s.isWritten j = true) : (s.setReg r v).isWritten j = true := by
  rw [setReg_isWritten, h, Bool.or_true]

theorem isWritten_effect (h : s.isWritten j = true) (i : Instr) : (effect s i).isWritten j = true := by
  cases i with
  | hlt => exact h
  | ldi r imm => exact isWritten_setReg h
  | prn r => exact h
  | add a b => exact isWritten_setReg h
  | mul a b => exact isWritten_setReg h
  | cmp a b => exact h
  | push r => exact stored_isWritten.trans h
  | pop r => exact incSp_isWritten.trans (isWritten_setReg h)
  | call r => exact (stored_isWritten (v := pcByte s)).trans h
  | ret => exact incSp_isWritten.trans h
  | jmp r => exact h

theorem isWritten_of_stoppedIn (h : s.isWritten j = true) (hu : StoppedIn s u) : u.isWritten j = true := by
  cases hu with
  | same => exact h
  | decremented => exact decSp_isWritten.trans h
  | stored v => exact stored_isWritten.trans h

theorem isWritten_of_exec (hw : s.isWritten j = true) (h : exec i s = .next t) : t.isWritten j = true := by
  obtain ⟨-, rfl⟩ | ⟨-, f, u, -, hu, rfl⟩ := exec_cases h
  · exact isWritten_effect hw i
  · exact (raiseFault_isWritten u j f).trans (isWritten_of_stoppedIn hw hu)

/-- No step clears the mark of a register. -/
theorem isWritten_of_step (hw : s.isWritten j = true) (h : step s = .next t) : t.isWritten j = true := by
  obtain ⟨-, ⟨-, rfl⟩ | ⟨-, -, rfl⟩ | ⟨-, i, -, he⟩⟩ := step_cases h
  · exact hw
  · exact hw
  · exact isWritten_of_exec (s := advancePc _ s) hw he

/-- A step raises UnwrittenRegister only for a register that it found unwritten. -/
theorem unwritten_of_step_faulted (h : step s = .next t) (ht : t.run = .faulted (.unwrittenRegister r)) :
    r < 7 ∧ s.isWritten r = false := by
  obtain ⟨-, hf⟩ | ⟨-, -, hf⟩ | ⟨-, i, -, hf⟩ := step_faulted_cases h ht
  · cases hf
  · cases hf
  · cases hf with
    | unwritten _ _ h7 hw => exact ⟨h7, hw⟩

/-- Settles O5: no step clears a mark, and only a cleared one can be faulted on. -/
theorem writtenRegistersStayWritten : Obligations.WrittenRegistersStayWritten := by
  refine ⟨by decide, fun s t hs h => ⟨fun j hj => isWritten_of_step (hs j hj) h, fun r ht => ?_⟩⟩
  obtain ⟨h7, hw⟩ := unwritten_of_step_faulted h ht
  cases (hs r h7).symm.trans hw

end Sys2Proof.Machine
end

section
/-! PROOFS. What a running machine does is read off its three bytes at `pc`: a fetch that leaves memory, a byte with no
row, or an instruction; and a fault that ends the step names what was read there. -/

namespace Sys2Proof.Machine

open Sys2Proof

variable {s t : State} {i : Instr} {r : Nat} {f : Fault}

/-! ### The instruction at `pc` -/

/-- At most three bytes that stand in the first of three places begin the list of those three. -/
theorem isPrefix_of_bytes {l : List Byte} {x y z : Byte} (hl : l.length ≤ 3) (hx : ∀ v, l[0]? = some v → x = v)
    (hy : ∀ v, l[1]? = some v → y = v) (hz : ∀ v, l[2]? = some v → z = v) : l <+: [x, y, z] := by
  rw [List.prefix_iff_getElem?]
  intro k hk
  have hv := List.getElem?_eq_getElem hk
  obtain rfl | rfl | rfl : k = 0 ∨ k = 1 ∨ k = 2 := by omega
  · exact congrArg some (hx _ hv)
  · exact congrArg some (hy _ hv)
  · exact congrArg some (hz _ hv)

theorem encode_length_le_three (i : Instr) : (encode i).length ≤ 3 := by
  rw [encode, encodeWith, List.length_cons, operandBytes_length]
  exact Nat.succ_le_succ (operandCount_le_two _)

/-- Where the encoding of a well-formed instruction stands at `pc`, that instruction is decoded. -/
theorem decoded_of_encoded (hi : i.wellFormed = true)
    (h : ∀ k v, (encode i)[k]? = some v → s.byteAt (s.pc + k) = v) : s.decoded i := by
  obtain ⟨rest, hrest⟩ := isPrefix_of_bytes (encode_length_le_three i) (h 0) (h 1) (h 2)
  exact ⟨rest, (congrArg decode hrest.symm).trans (decodeWith_encodeWith opcodeMap_conditions hi rest)⟩

/-- Settles O7: the encoding at `pc` is decoded to its instruction, and its opcode byte carries its length. -/
theorem stepRunsEncodedInstruction : Obligations.StepRunsEncodedInstruction := by
  intro s i hrun hpc hi h
  have hop : s.byteAt s.pc = opcodeMap i.handler := h 0 _ rfl
  have hlen : (encode i).length = 1 + arity (s.byteAt s.pc) := by
    rw [hop]
    exact Laws.EncodedLength.of_handler i
  rw [step_of_running hrun, cycle_of_decoded hpc (decoded_of_encoded hi h), hlen, ← Nat.add_assoc]
  rfl

/-! ### The outcomes of a step -/

/-- Settles O9: the fetch faults at the first address that does not exist, and the dispatch at a byte with no row. -/
theorem fetchAndDispatchFaultsInOrder : Obligations.FetchAndDispatchFaultsInOrder := by
  intro s hrun
  have hfetch (hpc : 256 ≤ s.pc + 2) : step s = .next (raiseFault (.outOfBoundsMem (max s.pc 256)) s) :=
    (step_of_running hrun).trans (cycle_of_fetch_fault hpc)
  refine ⟨fun hpc => ?_, fun hpc => ?_, fun hpc hl => ?_⟩
  · exact ⟨_, hfetch (by omega), by rw [raiseFault_run, Nat.max_eq_left hpc]⟩
  · exact ⟨_, hfetch (by omega), by rw [raiseFault_run, Nat.max_eq_right (by omega)]⟩
  · exact ⟨_, (step_of_running hrun).trans (cycle_of_no_lookup (by omega) hl), rfl⟩

/-- Settles O10: the fetch faults, or the byte has no row, or it has one and its instruction answers a next state. -/
theorem runningAlwaysSteps : Obligations.RunningAlwaysSteps := by
  intro s hrun
  rw [step_of_running hrun]
  by_cases hpc : 256 ≤ s.pc + 2
  · exact ⟨_, cycle_of_fetch_fault hpc⟩
  · replace hpc : s.pc + 2 < 256 := by omega
    cases hl : lookup (s.byteAt s.pc) with
    | none => exact ⟨_, cycle_of_no_lookup hpc hl⟩
    | some h =>
      obtain ⟨i, hi, -⟩ := decode_of_lookup (b1 := s.byteAt (s.pc + 1)) (b2 := s.byteAt (s.pc + 2)) hl
      rw [cycle_of_decoded hpc ⟨_, hi⟩]
      exact exec_next i _

/-- Only a running machine has a next state. -/
theorem no_step_of_not_running (h : s.run ≠ .running) : step s ≠ .next t := fun e => h (step_cases e).1

/-- Settles O11: what has a next state is running, and the engine answers for the two other engine states. -/
theorem haltedAndFaultedHaveNoStep : Obligations.HaltedAndFaultedHaveNoStep := by
  refine ⟨fun s t => no_step_of_not_running, fun s h => ?_, fun s f h => ?_⟩
  · simp only [step, engine, h]
  · simp only [step, engine, h]

/-! ### The operand that a fault names -/

/-- The second register operand of a well-formed instruction is its second operand byte. -/
theorem second_operandBytes (hw : i.wellFormed = true) (hr : (regOperands i)[1]? = some r) :
    i.operandBytes[1]? = some (operandByte r) ∧ operandFits r = true := by
  cases i with
  | add a b | mul a b | cmp a b =>
    obtain rfl : b = r := Option.some.inj hr
    exact ⟨rfl, (Bool.and_eq_true_iff.mp hw).2⟩
  | hlt | ldi | prn | push | pop | call | ret | jmp => cases hr

/-- The second register operand of what was decoded is the byte at `pc + 2`. -/
theorem second_operand_of_decoded (h : s.decoded i) (hr : (regOperands i)[1]? = some r) :
    (s.byteAt (s.pc + 2)).toNat = r := by
  obtain ⟨hw, hb⟩ := operandBytes_of_decoded h
  obtain ⟨h1, hf⟩ := second_operandBytes hw hr
  rw [hb, List.getElem?_take] at h1
  split at h1
  · rw [show s.byteAt (s.pc + 2) = operandByte r from Option.some.inj h1, operandByte_toNat hf]
  · cases h1

/-- A register operand is the first, or the second of an ALU instruction. -/
theorem regOperands_cases (hr : r ∈ regOperands i) : (regOperands i).head? = some r ∨
    (i.handler = .add ∨ i.handler = .mul ∨ i.handler = .cmp) ∧ (regOperands i)[1]? = some r := by
  cases i with
  | hlt | ret => cases hr
  | ldi r' | prn r' | push r' | pop r' | call r' | jmp r' => exact .inl (by rw [List.mem_singleton.mp hr]; rfl)
  | add a b | mul a b | cmp a b =>
    obtain rfl | hb := List.mem_cons.mp hr
    · exact .inl rfl
    · refine .inr ⟨by simp [Instr.handler], ?_⟩
      rw [List.mem_singleton.mp hb]
      rfl

/-- A register operand of what was decoded is the byte at `pc + 1`, or, for ADD, MUL and CMP, the byte at `pc + 2`. -/
theorem operand_of_decoded (h : s.decoded i) (hr : r ∈ regOperands i) : r = (s.byteAt (s.pc + 1)).toNat ∨
    (i.handler = .add ∨ i.handler = .mul ∨ i.handler = .cmp) ∧ r = (s.byteAt (s.pc + 2)).toNat :=
  (regOperands_cases hr).imp (fun h1 => (first_operand_of_decoded h h1).symm)
    (.imp_right fun h2 => (second_operand_of_decoded h h2).symm)

/-- An operand of what was decoded is a byte. -/
theorem operand_lt_of_decoded (h : s.decoded i) (hr : r ∈ regOperands i) : r < 256 := by
  obtain rfl | ⟨-, rfl⟩ := operand_of_decoded h hr
  · exact BitVec.isLt _
  · exact BitVec.isLt _

/-- HLT and RET have no register operand. -/
theorem handler_of_operand (hr : r ∈ regOperands i) : i.handler ≠ .hlt ∧ i.handler ≠ .ret := by
  cases i with
  | hlt | ret => cases hr
  | ldi | prn | add | mul | cmp | push | pop | call | jmp => simp [Instr.handler]

/-- An operand that LDI or POP only writes is never faulted on as unwritten. -/
theorem handler_of_read_operand (hr : r ∈ regOperands i) (hl : ∀ imm, i ≠ .ldi r imm) (hp : i ≠ .pop r) :
    i.handler ≠ .ldi ∧ i.handler ≠ .pop := by
  cases i with
  | ldi r' imm => exact absurd (by rw [List.mem_singleton.mp hr]) (hl imm)
  | pop r' => exact absurd (by rw [List.mem_singleton.mp hr]) hp
  | hlt | prn | add | mul | cmp | push | call | ret | jmp => simp [Instr.handler]

/-- Settles O12: the fault is that of the fetch, with the first address that does not exist, that of the dispatch, or
that of an operand of the instruction decoded. -/
theorem cycleFaultsAreTheSpecs : Obligations.CycleFaultsAreTheSpecs := by
  intro s t f h ht
  obtain ⟨hpc, rfl⟩ | ⟨-, hl, rfl⟩ | ⟨-, i, hi, hf⟩ := step_faulted_cases h ht
  · show 256 ≤ max s.pc 256 ∧ _
    exact ⟨by omega, by omega, by omega⟩
  · exact ⟨rfl, rfl, hl⟩
  · have hd := lookup_of_decoded hi
    cases hf with
    | index r hr h8 =>
      obtain ⟨hhlt, hret⟩ := handler_of_operand hr
      exact ⟨h8, operand_lt_of_decoded hi hr, _, hd, hhlt, hret, operand_of_decoded hi hr⟩
    | unwritten r hr h7 hw hl hp =>
      obtain ⟨hhlt, hret⟩ := handler_of_operand hr
      obtain ⟨hldi, hpop⟩ := handler_of_read_operand hr hl hp
      exact ⟨h7, hw, _, hd, hhlt, hret, hldi, hpop, operand_of_decoded hi hr⟩

end Sys2Proof.Machine
end

section
/-! PROOFS. The accesses to one cell of memory and to one register, and what the next fetch and the next read see. -/

namespace Sys2Proof.Machine

open Sys2Proof

variable {s : State} {a : Nat} {v : Byte}

theorem sameMemBut_write : SameMemBut a s { s with mem := s.mem.write a v } := fun _ hb => read_write_other hb

/-- Settles O45: below 256 the write answers the memory with that one cell changed, and above it faults. -/
theorem memWriteStoresOneByte : Obligations.MemWriteStoresOneByte := by
  intro s a v hm
  refine ⟨fun ha => ?_, fun ha => memWrite_error_iff.mpr ⟨ha, rfl⟩⟩
  have hread : ({ s with mem := s.mem.write a v } : State).byteAt a = v := read_write_same hm
  exact ⟨_, memWrite_of_lt ha, by rw [memRead_of_lt ha, hread], sameMemBut_write, fun _ => ⟨rfl, rfl⟩,
    rfl, rfl, rfl, rfl⟩

/-- Settles O24: the fetch reads the cell that was written. -/
theorem writtenByteIsFetched : Obligations.WrittenByteIsFetched := by
  intro s t a v hm h ha
  obtain ⟨-, rfl⟩ := memWrite_ok_iff.mp h
  exact ⟨_, fetch_of_lt ha, read_write_same hm⟩

/-- Settles O46: a write of a valid index sets that cell to the value modulo 256, and its mark. -/
theorem registerWriteReducesModulo256 : Obligations.RegisterWriteReducesModulo256 := by
  intro s i v hi
  refine ⟨_, writeReg_of_lt hi, ?_, readReg_of_readable (readable_setReg hi), sameRegsBut_setReg⟩
  rw [setReg_reg_same hi, toInt_mod_narrow]

end Sys2Proof.Machine
end

section
/-! PROOFS. The instructions on operands that can be used: each answers its effect, whose fields are those of the
updates it is made of. -/

namespace Sys2Proof.Machine

open Sys2Proof

variable {s t : State} {i : Instr} {r a b : Nat} {v : Byte}

/-! ### PRN and JMP -/

/-- Settles O27: the effect of PRN is to emit. -/
theorem prnEmitsRegister : Obligations.PrnEmitsRegister := fun _ r h =>
  ⟨_, exec_of_ready (i := .prn r) h, rfl, fun _ => ⟨rfl, rfl⟩, fun _ => rfl, rfl, rfl, rfl⟩

theorem exec_jmp (h : s.Readable r) : exec (.jmp r) s = .next (loadPc (s.reg r) s) := exec_of_ready (i := .jmp r) h

/-- Settles O39: the effect of JMP is to load `pc`. -/
theorem jmpLoadsPcFromRegister : Obligations.JmpLoadsPcFromRegister := fun _ _ h =>
  ⟨_, exec_jmp h, rfl, fun _ => ⟨rfl, rfl⟩, fun _ => rfl, rfl, rfl, rfl⟩

/-! ### ADD, MUL and CMP -/

/-- Settles O32: the effect of ADD and of MUL is one register write, reduced modulo 256. -/
theorem addAndMulWriteFirstOperand : Obligations.AddAndMulWriteFirstOperand := by
  intro s a b ha hb
  refine ⟨⟨_, exec_of_ready (i := .add a b) ⟨ha, hb⟩, ?_, setReg_isWritten_same, sameRegsBut_setReg, fun _ => rfl,
      rfl, rfl, rfl, rfl⟩,
    ⟨_, exec_of_ready (i := .mul a b) ⟨ha, hb⟩, ?_, setReg_isWritten_same, sameRegsBut_setReg, fun _ => rfl,
      rfl, rfl, rfl, rfl⟩⟩
  · exact (congrArg BitVec.toNat (setReg_reg_same ha.1)).trans (toNat_narrow_add _ _)
  · exact (congrArg BitVec.toNat (setReg_reg_same ha.1)).trans (toNat_narrow_mul _ _)

variable {l : FlagLayout} {x y : Byte}

theorem cmpFlagsIn_of_gt (h : y.toNat < x.toNat) : cmpFlagsIn l x y = l.greater := if_pos h

theorem cmpFlagsIn_of_eq (h : x.toNat = y.toNat) : cmpFlagsIn l x y = l.equal := by
  rw [cmpFlagsIn, if_neg (by omega), if_pos (BitVec.eq_of_toNat_eq h)]

theorem cmpFlagsIn_of_lt (h : x.toNat < y.toNat) : cmpFlagsIn l x y = l.less := by
  have hne : x ≠ y := by
    rintro rfl
    omega
  rw [cmpFlagsIn, if_neg (by omega), if_neg hne]

/-- Settles O30: each of the three orders of two numbers gives its own flag, so distinct flags tell the order. -/
theorem aluCmpIsUnsignedThreeWay : Obligations.AluCmpIsUnsignedThreeWay := by
  refine ⟨fun x y => ⟨_, rfl, cmpFlagsIn_of_gt, cmpFlagsIn_of_eq, cmpFlagsIn_of_lt⟩, fun l x y heg hgl hel => ?_⟩
  rcases Nat.lt_trichotomy x.toNat y.toNat with h | h | h
  · rw [cmpFlagsIn_of_lt h]
    exact ⟨iff_of_false hgl.symm (by omega), iff_of_false hel.symm (by omega), iff_of_true rfl h⟩
  · rw [cmpFlagsIn_of_eq h]
    exact ⟨iff_of_false heg (by omega), iff_of_true rfl h, iff_of_false hel (by omega)⟩
  · rw [cmpFlagsIn_of_gt h]
    exact ⟨iff_of_true rfl h, iff_of_false heg.symm (by omega), iff_of_false hgl (by omega)⟩

/-- Settles O33: the effect of CMP is to set FL to the comparison. -/
theorem cmpReplacesFlags : Obligations.CmpReplacesFlags := fun _ a b ha hb =>
  ⟨_, exec_of_ready (i := .cmp a b) ⟨ha, hb⟩, cmpFlagsIn_of_gt, fun h => cmpFlagsIn_of_eq (congrArg BitVec.toNat h),
    cmpFlagsIn_of_lt, fun _ => ⟨rfl, rfl⟩, fun _ => rfl, rfl, rfl, rfl⟩

/-! ### PUSH and CALL -/

theorem sameMemBut_stored : SameMemBut (pushAddr s) s (stored v s) := fun _ ha => stored_byteAt_other ha

theorem sameRegsBut_stored : SameRegsBut 7 s (stored v s) := fun _ hj =>
  ⟨decSp_reg.trans (if_neg hj), stored_isWritten⟩

/-- Settles O34: PUSH stores its register, as it is after the decrement, below SP. -/
theorem pushStoresBelowSp : Obligations.PushStoresBelowSp := fun _ r hm h =>
  ⟨_, exec_of_ready (i := .push r) h, stored_sp, pushAddr_eq, (stored_byteAt_same hm).trans decSp_reg,
    sameMemBut_stored, sameRegsBut_stored, rfl, rfl, rfl, rfl⟩

/-- Settles O37: CALL stores the byte of `pc` below SP, and loads `pc` from its register as it is after the
decrement. -/
theorem callStoresReturnAddressAndJumps : Obligations.CallStoresReturnAddressAndJumps := fun s r hm h =>
  ⟨_, exec_of_ready (i := .call r) h, stored_sp (v := pcByte s), pushAddr_eq,
    fun hpc => (congrArg BitVec.toNat (stored_byteAt_same hm)).trans (pcByte_toNat hpc),
    sameMemBut_stored, congrArg BitVec.toNat decSp_reg, sameRegsBut_stored (v := pcByte s), rfl, rfl, rfl⟩

/-! ### POP and RET -/

theorem sameRegsBut_incSp : SameRegsBut 7 s (incSp s) := fun _ hj => ⟨incSp_reg.trans (if_neg hj), incSp_isWritten⟩

theorem sameRegsButSpAnd_pop : SameRegsButSpAnd r s (incSp (s.setReg r v)) := fun j hr h7 =>
  have ⟨hv, hw⟩ := sameRegsBut_incSp (s := s.setReg r v) j h7
  ⟨hv.trans (setReg_reg_other hr), hw.trans (setReg_isWritten_other hr)⟩

/-- Settles O35: POP writes its register and then increments SP, which is R7. -/
theorem popLoadsFromSp : Obligations.PopLoadsFromSp := by
  intro s r hr
  refine ⟨_, exec_of_ready (i := .pop r) hr, rfl, fun h7 => ⟨?_, ?_⟩, ?_, ?_, sameRegsButSpAnd_pop, fun _ => rfl,
    rfl, rfl, rfl, rfl⟩
  · rw [effect, incSp_reg, if_neg h7, setReg_reg_same hr]
  · rw [effect, incSp_sp, sp_eq_reg, setReg_reg_other (Ne.symm h7), sp_eq_reg]
  · rintro rfl
    rw [effect, incSp_sp, sp_eq_reg, setReg_reg_same hr]
  · exact incSp_isWritten.trans setReg_isWritten_same

/-- Settles O38: the effect of RET is to load `pc` from the cell at SP, and to increment SP. -/
theorem retLoadsPcFromSp : Obligations.RetLoadsPcFromSp := fun _ =>
  ⟨_, exec_of_ready (i := .ret) trivial, rfl, rfl, incSp_sp, sameRegsBut_incSp, fun _ => rfl, rfl, rfl, rfl⟩

/-- Settles O36: the POP reads the cell that the PUSH stored to, and increments the SP that it decremented. -/
theorem pushThenPopRoundTrip : Obligations.PushThenPopRoundTrip := by
  intro s t r r' hm hr hr' ht
  obtain ⟨t', ht', hsp, hpush, hbyte, -⟩ := pushStoresBelowSp s r hm hr
  cases ht'.symm.trans ht
  obtain ⟨u, hu, hpop, hother, hseven, -⟩ := popLoadsFromSp t r' hr'
  have hval : t.byteAt (popAddr t) = if r = 7 then s.sp - 1 else s.reg r := by rw [hpop, hsp, ← hpush, hbyte]
  refine ⟨u, hu, fun h7 => ?_, fun h7 => ?_⟩
  · obtain ⟨hreg, husp⟩ := hother h7
    exact ⟨hreg.trans hval, by rw [husp, hsp, BitVec.sub_add_cancel]⟩
  · rw [hseven h7, hval]

/-- Settles O40: the RET reads the cell that the CALL stored to, and increments the SP that it decremented. -/
theorem callThenRetRoundTrip : Obligations.CallThenRetRoundTrip := by
  intro s t u r hm hr hpc ht husp hubyte
  obtain ⟨t', ht', hsp, hpush, hbyte, -⟩ := callStoresReturnAddressAndJumps s r hm hr
  cases ht'.symm.trans ht
  obtain ⟨v, hv, hpop, hvpc, hvsp, -⟩ := retLoadsPcFromSp u
  have haddr : popAddr t = pushAddr s := by rw [hpush, ← hsp, popAddr]
  refine ⟨v, hv, ?_, by rw [hvsp, husp, hsp, BitVec.sub_add_cancel]⟩
  rw [hvpc, hpop, husp, ← popAddr, hubyte, haddr, hbyte hpc]

/-! ### UnwrittenRegister of a register operand -/

/-- An instruction whose one register operand exists and cannot be used ends in the fault of an unwritten register. -/
theorem exec_of_single_operand_unwritten (hi : regOperands i = [r]) (h7 : r < 7) (hn : ¬ Ready s i) :
    ∃ t, exec i s = .next t ∧ t.run = .faulted (.unwrittenRegister r) := by
  have honly : ∀ r' ∈ regOperands i, r' = r := by simp [hi]
  obtain ⟨f, u, hf, -, e⟩ := exec_of_not_ready hn
  refine ⟨_, e, congrArg RunState.faulted ?_⟩
  cases hf with
  | index r' hr' h8 =>
    have := honly r' hr'
    omega
  | unwritten r' hr' => rw [honly r' hr']

theorem not_readable_of_unwritten (hw : s.isWritten r = false) : ¬ s.Readable r := fun h => by
  cases hw.symm.trans h.2

theorem aluInstr_of_first_unwritten (op : AluOp) (h7 : a < 7) (hw : s.isWritten a = false) :
    aluInstr op a b s = .next (raiseFault (.unwrittenRegister a) s) :=
  withReg_of_unwritten h7 hw

theorem aluInstr_of_second_unwritten (op : AluOp) (ha : s.Readable a) (h7 : b < 7) (hw : s.isWritten b = false) :
    aluInstr op a b s = .next (raiseFault (.unwrittenRegister b) s) :=
  (withReg_of_readable ha).trans (withReg_of_unwritten h7 hw)

/-- Settles O43: the fault is that of the one operand read, or of the first of two that is unwritten; LDI and POP write
theirs. -/
theorem unwrittenRegisterReadFaults : Obligations.UnwrittenRegisterReadFaults := by
  refine ⟨fun s r i h7 hw hi => ?_, fun s a b i h7 hw hi => ?_, fun s a b i ha h7 hw hi => ?_,
    fun s r imm i h7 hi => ?_⟩
  · have hn : ¬ s.Readable r := not_readable_of_unwritten hw
    obtain rfl | rfl | rfl | rfl := hi <;> exact exec_of_single_operand_unwritten rfl h7 hn
  · obtain ⟨op, e⟩ := exec_eq_aluInstr hi
    exact ⟨_, e.trans (aluInstr_of_first_unwritten op h7 hw), rfl⟩
  · obtain ⟨op, e⟩ := exec_eq_aluInstr hi
    exact ⟨_, e.trans (aluInstr_of_second_unwritten op ha h7 hw), rfl⟩
  · have h8 : r < 8 := by omega
    obtain rfl | rfl := hi
    · exact ⟨_, exec_ldi h8, rfl, setReg_isWritten_same⟩
    · exact ⟨_, exec_of_ready (i := .pop r) h8, rfl, incSp_isWritten.trans setReg_isWritten_same⟩

end Sys2Proof.Machine
end

section
/-! PROOFS. The frame of a step that does not fail: each effect writes memory, FL, the output and the registers only
where its instruction says so. -/

namespace Sys2Proof.Machine

open Sys2Proof

variable {s t : State} {i : Instr} {h : Handler} {r a j : Nat} {v : Byte}

theorem handler_ne_of_lookup_ne (hi : s.decoded i) (hl : lookup (s.byteAt s.pc) ≠ some h) : i.handler ≠ h := by
  rintro rfl
  exact hl (lookup_of_decoded hi)

theorem handler_eq_of_lookup (hi : s.decoded i) (hl : lookup (s.byteAt s.pc) = some h) : i.handler = h :=
  Option.some.inj ((lookup_of_decoded hi).symm.trans hl)

/-! ### Memory -/

/-- An effect leaves every byte but the one below SP as it is. -/
theorem sameMemBut_effect (i : Instr) : SameMemBut (pushAddr s) s (effect s i) := by
  cases i with
  | push r => exact sameMemBut_stored
  | call r => exact sameMemBut_stored
  | hlt | ldi | prn | add | mul | cmp | pop | ret | jmp => exact fun _ _ => rfl

theorem sameMem_effect (hp : i.handler ≠ .push) (hc : i.handler ≠ .call) : SameMem s (effect s i) := by
  cases i with
  | push r => exact absurd rfl hp
  | call r => exact absurd rfl hc
  | hlt | ldi | prn | add | mul | cmp | pop | ret | jmp => exact fun _ => rfl

/-- Settles O15: among the effects only those of PUSH and CALL store, below an SP that the advance left as it was. -/
theorem onlyPushAndCallWriteMemory : Obligations.OnlyPushAndCallWriteMemory := by
  intro s t h ht
  obtain ⟨-, i, hi, -, rfl⟩ := step_effect_of_not_failed h ht
  exact ⟨sameMemBut_effect (s := advancePc _ s) i, fun hp hc =>
    sameMem_effect (s := advancePc _ s) (handler_ne_of_lookup_ne hi hp) (handler_ne_of_lookup_ne hi hc)⟩

/-! ### The flags -/

theorem effect_fl_of_not_cmp (hc : i.handler ≠ .cmp) : (effect s i).fl = s.fl := by
  cases i with
  | cmp a b => exact absurd rfl hc
  | hlt | ldi | prn | add | mul | push | pop | call | ret | jmp => rfl

theorem effect_fl_of_cmp (hc : i.handler = .cmp) :
    (effect s i).fl = 0x01 ∨ (effect s i).fl = 0x02 ∨ (effect s i).fl = 0x04 := by
  cases i with
  | cmp a b => exact cmpFlags_cases _ _
  | hlt | ldi | prn | add | mul | push | pop | call | ret | jmp => cases hc

/-- Settles O16: among the effects only that of CMP sets FL, to one of the values of the comparison. -/
theorem onlyCmpWritesFlags : Obligations.OnlyCmpWritesFlags := by
  intro s t h ht
  obtain ⟨-, i, hi, -, rfl⟩ := step_effect_of_not_failed h ht
  exact ⟨fun hl => effect_fl_of_not_cmp (handler_ne_of_lookup_ne hi hl),
    fun hl => effect_fl_of_cmp (handler_eq_of_lookup hi hl)⟩

/-! ### The output -/

theorem effect_out_of_not_prn (hp : i.handler ≠ .prn) : (effect s i).out = s.out := by
  cases i with
  | prn r => exact absurd rfl hp
  | hlt | ldi | add | mul | cmp | push | pop | call | ret | jmp => rfl

theorem eq_prn_of_handler (hp : i.handler = .prn) : ∃ r, i = .prn r := by
  cases i with
  | prn r => exact ⟨r, rfl⟩
  | hlt | ldi | add | mul | cmp | push | pop | call | ret | jmp => cases hp

/-- Settles O20: among the effects only that of PRN emits, and its operand is the byte after the opcode. -/
theorem onlyPrnOutputs : Obligations.OnlyPrnOutputs := by
  intro s t h ht
  obtain ⟨-, i, hi, -, rfl⟩ := step_effect_of_not_failed h ht
  refine ⟨fun hl => effect_out_of_not_prn (handler_ne_of_lookup_ne hi hl), fun hl => ?_⟩
  obtain ⟨r, rfl⟩ := eq_prn_of_handler (handler_eq_of_lookup hi hl)
  rw [first_operand_of_decoded hi (r := r) rfl]
  rfl

/-! ### The registers -/

/-- The cell of register `j`, its value or its mark, differs between two states. -/
def RegChanged (j : Nat) (s t : State) : Prop := t.reg j ≠ s.reg j ∨ t.isWritten j ≠ s.isWritten j

theorem not_regChanged (h : t.reg j = s.reg j ∧ t.isWritten j = s.isWritten j) : ¬ RegChanged j s t := by
  obtain ⟨hv, hw⟩ := h
  rintro (hn | hn)
  · exact hn hv
  · exact hn hw

theorem eq_of_regChanged_setReg (h : RegChanged j s (s.setReg r v)) : j = r := by
  by_contra hj
  exact not_regChanged (sameRegsBut_setReg j hj) h

/-- An effect that changes a register other than R7 is that of LDI, ADD, MUL or POP, on its first operand. -/
theorem operand_of_regChanged_effect (h7 : j ≠ 7) (hj : RegChanged j s (effect s i)) :
    (regOperands i).head? = some j ∧ (i.handler = .ldi ∨ i.handler = .add ∨ i.handler = .mul ∨ i.handler = .pop) := by
  cases i with
  | ldi r imm | add r b | mul r b =>
    obtain rfl : j = r := eq_of_regChanged_setReg hj
    simp [regOperands, Instr.handler]
  | pop r =>
    obtain rfl : j = r := by
      by_contra hr
      exact not_regChanged (sameRegsButSpAnd_pop j hr h7) hj
    simp [regOperands, Instr.handler]
  | push r => exact absurd hj (not_regChanged (sameRegsBut_stored j h7))
  | call r => exact absurd hj (not_regChanged (sameRegsBut_stored (v := pcByte s) j h7))
  | ret => exact absurd hj (not_regChanged (sameRegsBut_incSp (s := loadPc _ s) j h7))
  | hlt | prn | cmp | jmp => exact absurd hj (not_regChanged ⟨rfl, rfl⟩)

/-- Settles O18: the register that an effect changes is its first operand, which is the byte after the opcode. -/
theorem onlyNamedRegisterIsWritten : Obligations.OnlyNamedRegisterIsWritten := by
  intro s t j h ht h7 hj
  obtain ⟨-, i, hi, -, rfl⟩ := step_effect_of_not_failed h ht
  obtain ⟨hr, hh⟩ := operand_of_regChanged_effect (s := advancePc _ s) h7 hj
  exact ⟨(first_operand_of_decoded hi hr).symm, i.handler, lookup_of_decoded hi, hh⟩

end Sys2Proof.Machine
end

section
/-! PROOFS. Nothing that a cycle is made of reads FL: two states that differ in FL alone take every branch alike. -/

namespace Sys2Proof.Machine

open Sys2Proof

variable {s : State} {v : Byte} {r : Nat} {α : Type}

/-- Where `x` answers a next state, `y` answers that state up to its FL. -/
def AlikeUpToFlags (x y : Result) : Prop := ∀ t, x = .next t → ∃ w, y = .next (setFlags w t)

theorem alike_next (v : Byte) (s : State) : AlikeUpToFlags (.next s) (.next (setFlags v s)) := by
  intro t h
  cases h
  exact ⟨v, rfl⟩

theorem alike_orFault {x : Except Fault α} {k k' : α → Result} (h : ∀ y, AlikeUpToFlags (k y) (k' y)) :
    AlikeUpToFlags (orFault s x k) (orFault (setFlags v s) x k') := by
  cases x with
  | ok y => exact h y
  | error f => exact alike_next v (raiseFault f s)

theorem alike_withReg {k k' : Byte → Result} (h : ∀ y, AlikeUpToFlags (k y) (k' y)) :
    AlikeUpToFlags (withReg r s k) (withReg r (setFlags v s) k') :=
  alike_orFault h

theorem alike_writeReg {w : Int} {k k' : State → Result} (h : ∀ t, AlikeUpToFlags (k t) (k' (setFlags v t))) :
    AlikeUpToFlags (orFault s (writeReg r w s) k) (orFault (setFlags v s) (writeReg r w (setFlags v s)) k') := by
  by_cases hr : r < 8
  · rw [writeReg_of_lt hr, writeReg_of_lt hr]
    exact h _
  · have hf (u : State) : writeReg r w u = .error (.outOfBoundsReg r) :=
      writeReg_error_iff.mpr ⟨Nat.not_lt.mp hr, rfl⟩
    rw [hf, hf]
    exact alike_next v _

theorem alike_commitFlags (flags : Option Byte) (s : State) :
    AlikeUpToFlags (.next (commitFlags flags s)) (.next (commitFlags flags (setFlags v s))) := by
  cases flags with
  | none => exact alike_next v s
  | some w => exact alike_next w (setFlags w s)

theorem alike_commitAlu (r : Nat) (o : AluOut) : AlikeUpToFlags (commitAlu r o s) (commitAlu r o (setFlags v s)) := by
  obtain ⟨result, flags⟩ := o
  cases result with
  | none => exact alike_commitFlags flags s
  | some w => exact alike_writeReg (alike_commitFlags flags)

theorem alike_aluInstr (op : AluOp) (a b : Nat) :
    AlikeUpToFlags (aluInstr op a b s) (aluInstr op a b (setFlags v s)) :=
  alike_withReg fun _ => alike_withReg fun _ => alike_orFault (alike_commitAlu a)

theorem alike_exec (i : Instr) : AlikeUpToFlags (exec i s) (exec i (setFlags v s)) := by
  cases i with
  | hlt => exact alike_next v (haltEngine s)
  | ldi r imm => exact alike_writeReg (alike_next v)
  | prn r => exact alike_withReg fun y => alike_next v (emit y s)
  | add a b => exact alike_aluInstr .add a b
  | mul a b => exact alike_aluInstr .mul a b
  | cmp a b => exact alike_aluInstr .cmp a b
  | push r =>
    refine alike_withReg (s := decSp s) fun y => ?_
    rw [storeAtSp_eq, storeAtSp_eq]
    exact alike_next v _
  | pop r =>
    show AlikeUpToFlags (execPop r s) (execPop r (setFlags v s))
    unfold execPop
    rw [loadAtSp_eq, loadAtSp_eq]
    exact alike_writeReg fun t => alike_next v (incSp t)
  | call r =>
    show AlikeUpToFlags (execCall r s) (execCall r (setFlags v s))
    unfold execCall
    rw [storeAtSp_eq, storeAtSp_eq]
    exact alike_withReg (s := stored (pcByte s) s) fun y => alike_next v (loadPc y _)
  | ret =>
    show AlikeUpToFlags (execRet s) (execRet (setFlags v s))
    unfold execRet
    rw [loadAtSp_eq, loadAtSp_eq]
    exact alike_next v (incSp (loadPc _ s))
  | jmp r => exact alike_withReg fun y => alike_next v (loadPc y s)

theorem alike_dispatch (x : Fetched) (a0 : Nat) (s : State) :
    AlikeUpToFlags (dispatch x a0 s) (dispatch x a0 (setFlags v s)) := by
  unfold dispatch
  split
  · exact alike_exec _
  · exact alike_next v (raiseFault _ s)

theorem alike_cycle (s : State) : AlikeUpToFlags (cycle s) (cycle (setFlags v s)) :=
  alike_orFault fun x => alike_dispatch x s.pc (advancePc (arity x.opcode) s)

/-- Settles O17: the cycles of the two machines are alike up to FL. -/
theorem flagsAreReadByNothing : Obligations.FlagsAreReadByNothing := by
  intro s t v h
  obtain ⟨hrun, -⟩ := step_cases h
  rw [step_of_running hrun] at h
  obtain ⟨w, hw⟩ := alike_cycle (v := v) s t h
  exact ⟨w, (step_of_running (s := setFlags v s) hrun).trans hw⟩

end Sys2Proof.Machine
end

section
/-! PROOFS. Runs: only a running machine has a next state, and it has one next state, so a run goes on until its one
end. -/

namespace Sys2Proof.Machine

open Sys2Proof

variable {s t u : State} {n m : Nat}

/-! ### The output of a run -/

/-- A step that does not fail adds at most one byte to the output. -/
theorem step_out_grows (h : step s = .next t) (ht : ¬ t.Failed) : ∃ vs, t.out = s.out ++ vs ∧ vs.length ≤ 1 := by
  obtain ⟨hkeep, hemit⟩ := onlyPrnOutputs s t h ht
  by_cases hl : lookup (s.byteAt s.pc) = some .prn
  · exact ⟨_, hemit hl, Nat.le_refl 1⟩
  · exact ⟨[], by rw [hkeep hl, List.append_nil], Nat.zero_le 1⟩

/-- A run that does not end in a fault does not start in one. -/
theorem not_failed_of_reachesIn (h : reachesIn n s t) (ht : ¬ t.Failed) : ¬ s.Failed := by
  rintro ⟨f, hf⟩
  cases n with
  | zero =>
    obtain rfl : s = t := h
    exact ht ⟨f, hf⟩
  | succ n =>
    obtain ⟨u, hu, -⟩ := h
    cases hf.symm.trans (step_cases hu).1

/-- Settles O21, by induction on the length of the run. -/
theorem outputGrowsAlongRuns : Obligations.OutputGrowsAlongRuns := by
  intro n
  induction n with
  | zero =>
    rintro s t rfl -
    exact ⟨[], (List.append_nil _).symm, Nat.le_refl 0⟩
  | succ n ih =>
    rintro s t ⟨u, hu, hut⟩ ht
    obtain ⟨vs, hvs, hlen⟩ := step_out_grows hu (not_failed_of_reachesIn hut ht)
    obtain ⟨ws, hws, hlen'⟩ := ih u t hut ht
    refine ⟨vs ++ ws, by rw [hws, hvs, List.append_assoc], ?_⟩
    rw [List.length_append]
    omega

/-! ### The end of a run -/

/-- A running machine is still running after `n` steps, or has come to an end. -/
theorem running_or_ended (hs : s.run = .running) (n : Nat) :
    (∃ t, reachesIn n s t ∧ t.run = .running) ∨ ∃ m t, reachesIn m s t ∧ t.run ≠ .running := by
  induction n generalizing s with
  | zero => exact .inl ⟨s, rfl, hs⟩
  | succ n ih =>
    obtain ⟨u, hu⟩ := runningAlwaysSteps s hs
    by_cases hrun : u.run = .running
    · obtain ⟨t, hut, ht⟩ | ⟨m, t, hut, ht⟩ := ih hrun
      · exact .inl ⟨t, ⟨u, hu, hut⟩, ht⟩
      · exact .inr ⟨m + 1, t, ⟨u, hu, hut⟩, ht⟩
    · exact .inr ⟨1, u, ⟨u, hu, rfl⟩, hrun⟩

/-- A state in which a run ended is the last of the run, and every state before it is running. -/
theorem reachesIn_of_ended (h : reachesIn n s t) (ht : t.run ≠ .running) (h' : reachesIn m s u) :
    m = n ∧ u = t ∨ m < n ∧ u.run = .running := by
  induction n generalizing s m with
  | zero =>
    obtain rfl : s = t := h
    cases m with
    | zero => exact .inl ⟨rfl, h'.symm⟩
    | succ m =>
      obtain ⟨w, hw, -⟩ := h'
      exact absurd hw (no_step_of_not_running ht)
  | succ n ih =>
    obtain ⟨w, hw, hwt⟩ := h
    cases m with
    | zero =>
      obtain rfl : s = u := h'
      exact .inr ⟨Nat.succ_pos n, (step_cases hw).1⟩
    | succ m =>
      obtain ⟨w', hw', hwu⟩ := h'
      cases hw.symm.trans hw'
      obtain ⟨rfl, rfl⟩ | ⟨hlt, hrun⟩ := ih hwt hwu
      · exact .inl ⟨rfl, rfl⟩
      · exact .inr ⟨Nat.succ_lt_succ hlt, hrun⟩

/-- Settles O22: a run that is not running at some length has come to an end, which is Halted or Faulted. -/
theorem runEndsInExactlyOneWay : Obligations.RunEndsInExactlyOneWay := by
  intro s hs
  refine ⟨?_, fun n t m u h ht h' => reachesIn_of_ended h ht h'⟩
  by_cases hgo : ∀ n, ∃ t, reachesIn n s t ∧ t.run = .running
  · exact .inr (.inr hgo)
  · obtain ⟨n, hn⟩ := not_forall.mp hgo
    obtain ⟨m, t, hst, ht⟩ := (running_or_ended hs n).resolve_left hn
    cases e : t.run with
    | running => exact absurd e ht
    | halted => exact .inl ⟨m, t, hst, e⟩
    | faulted f => exact .inr (.inl ⟨m, t, hst, f, e⟩)

/-- A state that steps to itself reaches itself in any number of steps, and nothing else. -/
theorem reachesIn_iff_of_step_self (h : step s = .next s) : reachesIn n s t ↔ t = s := by
  induction n with
  | zero => exact eq_comm
  | succ n ih =>
    constructor
    · rintro ⟨u, hu, hut⟩
      cases h.symm.trans hu
      exact ih.mp hut
    · exact fun e => ⟨s, h, ih.mpr e⟩

/-- Settles O23: the JMP loads `pc` with the address it had before the advance, so the step answers the same state. -/
theorem jmpToItselfNeverEnds : Obligations.JmpToItselfNeverEnds := by
  intro s hrun hpc hl hr hself
  have hstep : step s = .next s := by
    refine (step_of_lookup hrun hpc hl rfl).trans ((exec_jmp (s := advancePc 1 s) hr).trans ?_)
    exact congrArg (fun p => Host.Outcome.next { s with pc := p }) hself
  refine ⟨fun n => ⟨(reachesIn_iff_of_step_self hstep).mpr rfl, fun t => (reachesIn_iff_of_step_self hstep).mp⟩, ?_⟩
  rintro n t h ⟨f, hf⟩
  obtain rfl := (reachesIn_iff_of_step_self hstep).mp h
  cases hrun.symm.trans hf

end Sys2Proof.Machine
end

section
/-! PROOFS. The load of an image: each line is read alone, a comment and the blanks around a token change nothing, and
the bytes of the tokens are placed from address 0 until a line faults. -/

namespace Sys2Proof.Machine

open Sys2Proof

variable {n a k : Nat} {l l' p q : List Char} {ls : List (List Char)} {s : State} {v : Byte} {vs : List Byte}

/-! ### The invariant after the load -/

theorem inv_loadLines (hs : s.Inv) : (loadLines n a ls s).Inv := by
  induction ls generalizing n a s with
  | nil => exact hs
  | cons l ls ih =>
    cases hl : lineToken l with
    | blank =>
      rw [loadLines_blank hl]
      exact ih hs
    | malformed =>
      rw [loadLines_malformed hl]
      exact inv_raiseFault hs
    | byte v =>
      by_cases ha : a < 256
      · rw [loadLines_byte hl ha]
        exact ih (inv_write hs ha)
      · rw [loadLines_full hl (Nat.not_lt.mp ha)]
        exact inv_raiseFault hs

/-- Settles O3: the construction has the invariant, and each line keeps it. -/
theorem bootEstablishesInv : Obligations.BootEstablishesInv := by
  intro init image
  cases image with
  | none => exact inv_raiseFault (inv_construct init)
  | some text => exact inv_loadLines (inv_construct init)

/-! ### Comments and blanks -/

theorem lineToken_congr (h : trim (stripComment l) = trim (stripComment l')) : lineToken l = lineToken l' := by
  unfold lineToken
  rw [h]

theorem stripComment_append_comment (h : '#' ∉ l) (rest : List Char) : stripComment (l ++ '#' :: rest) = l := by
  have hl : ∀ c ∈ l, decide (c ≠ '#') = true := fun c hc => decide_eq_true (ne_of_mem_of_not_mem hc h)
  unfold stripComment
  rw [List.takeWhile_append_of_pos hl, List.takeWhile_cons_of_neg (by simp), List.append_nil]

theorem lineToken_append_comment (h : '#' ∉ l) (rest : List Char) : lineToken (l ++ '#' :: rest) = lineToken l :=
  lineToken_congr (by rw [stripComment_append_comment h, stripComment_eq h])

theorem trim_blanks_append (hp : ∀ c ∈ p, isBlank c = true) : trim (p ++ l) = trim l := by
  unfold trim
  rw [List.dropWhile_append_of_pos hp]

theorem trim_append_blanks (hq : ∀ c ∈ q, isBlank c = true) : trim (l ++ q) = trim l := by
  unfold trim
  rw [List.dropWhile_append]
  split
  · next he => rw [List.isEmpty_iff.mp he, List.dropWhile_eq_nil_iff.mpr hq]
  · rw [List.reverse_append, List.dropWhile_append_of_pos fun c hc => hq c (List.mem_reverse.mp hc)]

theorem not_comment_of_blanks (hp : ∀ c ∈ p, isBlank c = true) : '#' ∉ p := fun h => by
  cases hp _ h

theorem lineToken_blanks_around (hp : ∀ c ∈ p, isBlank c = true) (hq : ∀ c ∈ q, isBlank c = true) (hl : '#' ∉ l) :
    lineToken (p ++ l ++ q) = lineToken l := by
  have h : '#' ∉ p ++ l ++ q := by simp [not_comment_of_blanks hp, not_comment_of_blanks hq, hl]
  exact lineToken_congr (by rw [stripComment_eq h, stripComment_eq hl, trim_append_blanks hq, trim_blanks_append hp])

theorem lineToken_of_blanks (hp : ∀ c ∈ p, isBlank c = true) : lineToken p = .blank := by
  have h := lineToken_blanks_around (l := []) hp (q := []) (by simp) (by simp)
  rw [List.append_nil, List.append_nil] at h
  exact h.trans rfl

/-- Settles O53: the comment is cut off and the blanks are trimmed before the token is read. -/
theorem commentsAndBlanksAreIgnored : Obligations.CommentsAndBlanksAreIgnored :=
  ⟨fun _ rest hl => lineToken_append_comment hl rest, fun _ _ _ hp hq hl => lineToken_blanks_around hp hq hl,
    fun _ rest hp => ⟨lineToken_of_blanks hp,
      (lineToken_append_comment (not_comment_of_blanks hp) rest).trans (lineToken_of_blanks hp)⟩,
    fun _ _ _ _ _ h => loadLines_blank h⟩

/-! ### The value of a token -/

/-- What a token of this value is: a byte below 256, and malformed otherwise (R114, R115). -/
def tokenOfValue : Option Nat → LineToken
  | none => .malformed
  | some v => if v < 256 then .byte (BitVec.ofNat 8 v) else .malformed

/-- A line that is a token, without a comment or blanks around it, is read by its value. -/
theorem lineToken_of_token (hne : l ≠ []) (hc : '#' ∉ l) (ht : trim l = l) :
    lineToken l = tokenOfValue (binaryValue 0 l) := by
  unfold lineToken
  rw [stripComment_eq hc, ht]
  cases l with
  | nil => exact absurd rfl hne
  | cons c cs =>
    cases e : binaryValue 0 (c :: cs) with
    | none => simp only [e, tokenOfValue]
    | some v => simp only [e, tokenOfValue]

theorem lineToken_of_digits (hne : l ≠ []) (hd : ∀ c ∈ l, c = '0' ∨ c = '1') :
    lineToken l = tokenOfValue (binaryValue 0 l) := by
  refine lineToken_of_token hne (fun h => ?_) (trim_eq fun c hc => ?_)
  · have := hd _ h
    simp at this
  · obtain rfl | rfl := hd c hc <;> rfl

theorem binaryValue_eq_none {acc : Nat} (h : ∃ c ∈ l, c ≠ '0' ∧ c ≠ '1') : binaryValue acc l = none := by
  induction l generalizing acc with
  | nil => simp at h
  | cons d l ih =>
    obtain ⟨c, hc, h0, h1⟩ := h
    obtain rfl | hc := List.mem_cons.mp hc
    · rw [binaryValue, if_neg h0, if_neg h1]
    · have ih' (acc : Nat) : binaryValue acc l = none := ih ⟨c, hc, h0, h1⟩
      simp [binaryValue, ih']

/-- The lowest `n` bits of a byte as digits, the most significant first. -/
def lowDigits (v : Byte) (n : Nat) : List Char :=
  (List.range n).map fun k => if v.getLsbD (n - 1 - k) then '1' else '0'

theorem binaryToken_eq_lowDigits (v : Byte) : binaryToken v = lowDigits v 8 := rfl

theorem lowDigits_succ (v : Byte) (n : Nat) :
    lowDigits v (n + 1) = (if v.getLsbD n then '1' else '0') :: lowDigits v n := by
  simp [lowDigits, List.range_succ_eq_map, Nat.sub_sub, Nat.add_comm]

theorem binaryValue_digit_cons (b : Bool) (acc : Nat) (cs : List Char) :
    binaryValue acc ((if b then '1' else '0') :: cs) = binaryValue (2 * acc + b.toNat) cs := by
  cases b <;> rfl

theorem binaryValue_lowDigits (v : Byte) (acc n : Nat) :
    binaryValue acc (lowDigits v n) = some (acc * 2 ^ n + v.toNat % 2 ^ n) := by
  induction n generalizing acc with
  | zero => simp [lowDigits, binaryValue, Nat.mod_one]
  | succ n ih =>
    rw [lowDigits_succ, binaryValue_digit_cons, ih, Nat.mod_pow_succ, ← Nat.toNat_testBit, BitVec.testBit_toNat]
    ring_nf

/-- The token written for a byte is read as that byte. -/
theorem lineToken_binaryToken (v : Byte) : lineToken (binaryToken v) = .byte v := by
  have hv : binaryValue 0 (binaryToken v) = some v.toNat := by
    rw [binaryToken_eq_lowDigits, binaryValue_lowDigits, Nat.zero_mul, Nat.zero_add, Nat.mod_eq_of_lt v.isLt]
  have hne : binaryToken v ≠ [] := List.cons_ne_nil _ _
  rw [lineToken_of_digits hne (binaryToken_digits v), hv, tokenOfValue, if_pos v.isLt,
    BitVec.ofNat_toNat, BitVec.setWidth_eq]

/-! ### The bytes of an image -/

theorem splitLines_imageText (vs : List Byte) : splitLines (imageText vs) = vs.map binaryToken ++ [[]] := by
  induction vs with
  | nil => rfl
  | cons v vs ih =>
    have hn : '\n' ∉ binaryToken v := fun h => by simpa using binaryToken_digits v _ h
    rw [imageText_cons, splitLines_cons _ _ hn, ih, List.map_cons, List.cons_append]

theorem boot_imageText (init : Config.RegInit) (vs : List Byte) :
    boot init (some (imageText vs)) = loadLines 1 0 (vs.map binaryToken ++ [[]]) (State.construct init) := by
  rw [← splitLines_imageText]
  rfl

/-- Lines of one written byte each place their bytes, as far as memory goes. -/
theorem loadLines_bytes (h : a + vs.length ≤ 256) :
    loadLines n a (vs.map binaryToken ++ ls) s = loadLines (n + vs.length) (a + vs.length) ls (placeBytes vs a s) := by
  induction vs generalizing n a s with
  | nil => rfl
  | cons v vs ih =>
    rw [List.length_cons] at h ⊢
    have ha : a < 256 := by omega
    rw [List.map_cons, List.cons_append, loadLines_byte (lineToken_binaryToken v) ha, ih (by omega), placeBytes,
      if_pos ha, Nat.add_right_comm n, Nat.add_right_comm a]
    rfl

theorem placeBytes_eq_with_mem (vs : List Byte) (a : Nat) (s : State) :
    placeBytes vs a s = { s with mem := (placeBytes vs a s).mem } := by
  induction vs generalizing a s with
  | nil => rfl
  | cons v vs ih =>
    rw [placeBytes]
    refine (ih _ _).trans ?_
    split <;> rfl

theorem placeBytes_byteAt_below (h : k < a) : (placeBytes vs a s).byteAt k = s.byteAt k := by
  induction vs generalizing a s with
  | nil => rfl
  | cons v vs ih =>
    rw [placeBytes, ih (by omega)]
    split
    · exact read_write_other (by omega)
    · rfl

/-- The cell `k` past the first one placed holds byte `k`, or what it held where there is none. -/
theorem placeBytes_byteAt (hs : s.mem.wf = true) (h : a + vs.length ≤ 256) (k : Nat) :
    (placeBytes vs a s).byteAt (a + k) = vs[k]?.getD (s.byteAt (a + k)) := by
  induction vs generalizing a s k with
  | nil => rfl
  | cons v vs ih =>
    rw [List.length_cons] at h
    have ha : a < 256 := by omega
    rw [placeBytes, if_pos ha]
    cases k with
    | zero => exact (placeBytes_byteAt_below (Nat.lt_add_one a)).trans (read_write_same hs)
    | succ k =>
      rw [← Nat.add_assoc, Nat.add_right_comm a k 1, ih (write_wf hs ha) (by omega), List.getElem?_cons_succ]
      exact congrArg _ (read_write_other (by omega))

/-- Settles O52: the lines place their bytes from address 0 in the constructed memory, which is all 0. -/
theorem loadFillsMemoryFromZero : Obligations.LoadFillsMemoryFromZero := by
  intro init bytes h
  have h0 : 0 + bytes.length ≤ 256 := by omega
  have ht : boot init (some (imageText bytes)) = placeBytes bytes 0 (State.construct init) := by
    rw [boot_imageText, loadLines_bytes h0, loadLines_blank (lineToken_of_blanks (by simp))]
    rfl
  rw [ht]
  refine ⟨fun k => ?_, placeBytes_eq_with_mem bytes 0 _⟩
  have hk := placeBytes_byteAt (s := State.construct init) rfl h0 k
  rwa [Nat.zero_add] at hk

/-! ### Load errors -/

theorem loadLines_of_malformed_mem (hl : l ∈ ls) (hm : lineToken l = .malformed) :
    ∃ m, (loadLines n a ls s).run = .faulted (.loadError (some m)) := by
  induction ls generalizing n a s with
  | nil => cases hl
  | cons l' ls ih =>
    have hls (hne : lineToken l' ≠ .malformed) : l ∈ ls :=
      (List.mem_cons.mp hl).resolve_left fun e => hne (e ▸ hm)
    cases hl' : lineToken l' with
    | blank =>
      rw [loadLines_blank hl']
      exact ih (hls (by simp [hl']))
    | malformed =>
      rw [loadLines_malformed hl']
      exact ⟨n, rfl⟩
    | byte v =>
      by_cases ha : a < 256
      · rw [loadLines_byte hl' ha]
        exact ih (hls (by simp [hl']))
      · rw [loadLines_full hl' (Nat.not_lt.mp ha)]
        exact ⟨n, rfl⟩

/-- Settles O54: a token with another character has no value, and the load of a malformed line stops there at the
latest. -/
theorem badImageIsLoadError : Obligations.BadImageIsLoadError := by
  refine ⟨fun l hc hhead hlast hbad => ?_, fun init text l hl hm => ?_, fun init => ⟨rfl, rfl⟩,
    fun init image n h t => ?_⟩
  · have hne : l ≠ [] := by
      rintro rfl
      simp at hbad
    rw [lineToken_of_token hne hc (trim_of_ends hhead hlast), binaryValue_eq_none hbad]
    rfl
  · exact loadLines_of_malformed_mem hl hm
  · exact no_step_of_not_running (by simp [h])

/-- Settles O55: 256 lines fill the memory, so the next one finds no cell; and a token is read by its value. -/
theorem tooLongImageIsLoadError : Obligations.TooLongImageIsLoadError := by
  refine ⟨fun init bytes h => ?_, fun l v hne hd hv => ?_⟩
  · obtain ⟨v, vs, hvs⟩ : ∃ v vs, bytes.drop 256 = v :: vs :=
      List.exists_cons_of_ne_nil fun e => absurd (List.drop_eq_nil_iff.mp e) (Nat.not_le.mpr h)
    have hlen : (bytes.take 256).length = 256 := List.length_take_of_le (Nat.le_of_lt h)
    have hlines : bytes.map binaryToken ++ [[]] =
        (bytes.take 256).map binaryToken ++ (binaryToken v :: (vs.map binaryToken ++ [[]])) := by
      conv_lhs => rw [← List.take_append_drop 256 bytes, hvs]
      simp
    rw [boot_imageText, hlines, loadLines_bytes (by omega), hlen,
      loadLines_full (lineToken_binaryToken v) (by omega)]
    rfl
  · rw [lineToken_of_digits hne hd, hv, tokenOfValue]
    exact ⟨fun h => if_pos h, fun h => if_neg (Nat.not_lt.mpr h)⟩

/-! ### The exit status -/

theorem exitStatus_of_faulted {f : Fault} (h : s.run = .faulted f) : exitStatus s = some (faultExitStatus f) := by
  rw [exitStatus, h]

theorem faultExitStatus_ne_zero (f : Fault) : faultExitStatus f ≠ 0 := by
  cases f with
  | loadError line =>
    cases line with
    | none => exact Nat.succ_ne_zero _
    | some n => exact Nat.succ_ne_zero _
  | unknownOpcode | outOfBoundsMem | outOfBoundsReg | unsupportedOperation | unwrittenRegister =>
    exact Nat.succ_ne_zero _

/-- Settles O56: the exit status is read off the engine state, and that of a fault is a successor. -/
theorem exitStatusSeparatesHaltFromFault : Obligations.ExitStatusSeparatesHaltFromFault := by
  intro s
  refine ⟨fun h => ?_, fun h => ?_, fun h => ?_, fun f h => ⟨_, ?_, faultExitStatus_ne_zero f⟩⟩
  · rw [exitStatus, h]
  · rw [exitStatus, h]
  · rw [exitStatus_of_faulted h, faultExitStatus]
  · exact exitStatus_of_faulted h

end Sys2Proof.Machine
end
